-- ==== Sys2Proof/Word.lean ====
section
/-! DEFINITION. The two word widths of the block (spec/00_scope.md R10), the two-valued acknowledge policy and the two lines. -/

namespace Sys2Proof

/-- A command word, a register value or a host address: 32 bits (R10, R70). -/
abbrev Word := BitVec 32

/-- A bus byte, or the CRC accumulator: 8 bits (R10). -/
abbrev Byte := BitVec 8

/-- The operand of READ: `ack` is A = 1, "ack to request more data"; `nack` is A = 0, "no-ack to terminate the
read" (R72). -/
inductive AckPolicy where
  | nack
  | ack
  deriving DecidableEq, Repr

/-- The two lines of the bus, data and clock (R10, R12). -/
inductive Line where
  | sda
  | scl
  deriving DecidableEq, Repr

end Sys2Proof
end

