-- ==== Sys2Proof/Machine/Operands.lean ====
section
/-! DEFINITION. Operand fields of a command word (spec/30_encoding.md R71, R72), byte lanes of a register
(spec/20_memory.md R53), the bits of a byte in bus order (R54) and address bytes (spec/10_state.md R41). -/

namespace Sys2Proof

/-- `OP = w[31:24]` (R71). -/
def opField (w : Word) : Byte := w.extractLsb' 24 8

/-- `RZ = w[23:16]`, reserved, zero in every format (R71). -/
def rzField (w : Word) : Byte := w.extractLsb' 16 8

/-- `imm8 = w[7:0]` (R72). -/
def imm8Field (w : Word) : Byte := w.extractLsb' 0 8

/-- `A = w[0]`: 1 is acknowledge, 0 is no-acknowledge (R72). -/
def ackField (w : Word) : AckPolicy := if w.getLsbD 0 then .ack else .nack

/-- `imm16 = w[15:0]` (R72). -/
def imm16Field (w : Word) : BitVec 16 := w.extractLsb' 0 16

/-- The one bit that carries an acknowledge policy (R72). -/
def AckPolicy.bit : AckPolicy → BitVec 1
  | .nack => 0#1
  | .ack => 1#1

/-- Byte k of a 32-bit register value, bits 8k+7 : 8k (R53, little-endian). -/
def byteLane (v : Word) (k : Nat) : Byte := v.extractLsb' (8 * k) 8

/-- The four bytes of a word in address order (R53). -/
def wordBytes (v : Word) : List Byte := [byteLane v 0, byteLane v 1, byteLane v 2, byteLane v 3]

/-- The word whose bytes in address order are b0 to b3 (R53). -/
def wordOfBytes (b0 b1 b2 b3 : Byte) : Word := b3 ++ b2 ++ b1 ++ b0

/-- Bit numbers of a byte in the order they cross the bus: 7 first, 0 last (R54). -/
def bitsDown : List Nat := [7, 6, 5, 4, 3, 2, 1, 0]

/-- `r[i] <- b` on a byte (R112). -/
def setBit (r : Byte) (i : Nat) (b : Bool) : Byte :=
  if b then r ||| (1#8 <<< i) else r &&& ~~~(1#8 <<< i)

/-- An address byte: the 7-bit device address shifted left by one, with the intent bit, 0 = write, 1 = read, in bit 0
(R41, R77). -/
def addressByte (a : BitVec 7) (readIntent : Bool) : Byte := a ++ BitVec.ofBool readIntent

end Sys2Proof
end

