-- ==== Sys2Proof/Syntax.lean ====
section
/-! DEFINITION. The command set BB2W-1 (spec/30_encoding.md R73): one constructor per row of spec/opcode_table.json.
Every operand is an immediate field of the word (R20, R72). -/

namespace Sys2Proof

/-- A command (R73). -/
inductive Instr where
  /-- INIT, release both lines (R90). -/
  | init
  /-- START, a start condition (R91). -/
  | start
  /-- STOP, a stop condition (R92). -/
  | stop
  /-- WRITE imm8, transmit a byte (R111). -/
  | write (imm8 : Byte)
  /-- READ A, receive a byte (R112). -/
  | read (a : AckPolicy)
  /-- CRCINIT, clear the accumulator (R131). -/
  | crcinit
  /-- CRCUPD imm8, fold in a byte (R132). -/
  | crcupd (imm8 : Byte)
  /-- CRCCHK imm8, compare with an expected checksum (R133). -/
  | crcchk (imm8 : Byte)
  /-- DELAY imm16, wait at least that many microseconds (R153). -/
  | delay (imm16 : BitVec 16)
  deriving DecidableEq, Repr

end Sys2Proof
end

