-- ==== Sys2Proof/WellFormed.lean ====
section
/-! DEFINITION. Well-formed commands and well-formed assembler lines (spec/30_encoding.md R72, R76, R77). A command's
operands have their field's width by type, so a command cannot be ill formed; an assembler line writes its operands as
numbers, and "an operand out of its field's range is an assembly error, never a truncation" (R76). -/

namespace Sys2Proof

/-- Whether a command's operands fit their fields (R72): each does by its type. -/
def Instr.wellFormed : Instr → Bool
  | .init => true
  | .start => true
  | .stop => true
  | .write imm8 => decide (imm8.toNat ≤ 255)
  | .read _ => true
  | .crcinit => true
  | .crcupd imm8 => decide (imm8.toNat ≤ 255)
  | .crcchk imm8 => decide (imm8.toNat ≤ 255)
  | .delay imm16 => decide (imm16.toNat ≤ 65535)

/-- One line of assembler: a command of R76 or a pseudo-instruction of R77, operands still plain numbers. -/
inductive Asm where
  | init
  | start
  | stop
  | write (b : Nat)
  | read (a : AckPolicy)
  | crcinit
  | crcupd (b : Nat)
  | crcchk (e : Nat)
  | delay (n : Nat)
  /-- `NOP` (R77). -/
  | nop
  /-- `CHECKCRC e, d0, ..., dk-1` (R77). -/
  | checkcrc (e : Nat) (ds : List Nat)
  /-- `DELAYL n` (R77). -/
  | delayl (n : Nat)
  /-- `ADDRW a`, address byte with write intent (R77). -/
  | addrw (a : Nat)
  /-- `ADDRR a`, address byte with read intent (R77). -/
  | addrr (a : Nat)
  deriving DecidableEq, Repr

/-- Whether every operand of a line is in its field's range (R76, R77). `DELAYL` takes every n ≥ 0. -/
def Asm.wellFormed : Asm → Bool
  | .init => true
  | .start => true
  | .stop => true
  | .write b => decide (b ≤ 255)
  | .read _ => true
  | .crcinit => true
  | .crcupd b => decide (b ≤ 255)
  | .crcchk e => decide (e ≤ 255)
  | .delay n => decide (n ≤ 65535)
  | .nop => true
  | .checkcrc e ds => decide (e ≤ 255) && ds.all (fun d => decide (d ≤ 255))
  | .delayl _ => true
  | .addrw a => decide (a ≤ 127)
  | .addrr a => decide (a ≤ 127)

end Sys2Proof
end

