-- ==== Sys2Proof/Decode.lean ====
section
/-! DEFINITION. The opcode map, the decoder, total and rejecting by name, and the encoder (spec/30_encoding.md R70 to
R75). -/

namespace Sys2Proof

/-- The mnemonics of R73. -/
inductive Mnemonic where
  | init | start | stop | write | read | crcinit | crcupd | crcchk | delay
  deriving DecidableEq, Repr

/-- A row of the opcode map: a word w selects it when `(w & mask) == pattern` (R73; pattern is the column "match"). -/
structure OpcodeRow where
  mnemonic : Mnemonic
  pattern : Word
  mask : Word
  deriving DecidableEq, Repr

/-- Why a word is illegal (R75). -/
inductive DecodeError where
  /-- R75 (a): the OP value is not in R73. -/
  | unassignedOp
  /-- R75 (b): an assigned OP with a 1 in a bit its format requires to be 0. -/
  | reservedBitSet
  /-- Fewer than the four bytes of a word (`decodeBytes` only: a legal CMD write always gives 32 bits, R51). -/
  | truncated
  deriving DecidableEq, Repr

/-- The complete opcode map of R73, in its order. -/
def opcodeTable : List OpcodeRow :=
  [ ⟨.init,    0x01000000#32, 0xFFFFFFFF#32⟩,
    ⟨.start,   0x02000000#32, 0xFFFFFFFF#32⟩,
    ⟨.stop,    0x03000000#32, 0xFFFFFFFF#32⟩,
    ⟨.write,   0x04000000#32, 0xFFFFFF00#32⟩,
    ⟨.read,    0x05000000#32, 0xFFFFFFFE#32⟩,
    ⟨.crcinit, 0x10000000#32, 0xFFFFFFFF#32⟩,
    ⟨.crcupd,  0x11000000#32, 0xFFFFFF00#32⟩,
    ⟨.crcchk,  0x12000000#32, 0xFFFFFF00#32⟩,
    ⟨.delay,   0x20000000#32, 0xFFFF0000#32⟩ ]

/-- Whether w selects the row (R73). -/
def OpcodeRow.selects (r : OpcodeRow) (w : Word) : Bool := (w &&& r.mask) == r.pattern

/-- The row of R73 that w selects, if there is one (R74). -/
def selectRow (w : Word) : Option OpcodeRow := opcodeTable.find? (fun r => r.selects w)

/-- The command of a row, its operands taken from w without sign extension, scaling or shifting (R72). -/
def Mnemonic.build (m : Mnemonic) (w : Word) : Instr :=
  match m with
  | .init => .init
  | .start => .start
  | .stop => .stop
  | .write => .write (imm8Field w)
  | .read => .read (ackField w)
  | .crcinit => .crcinit
  | .crcupd => .crcupd (imm8Field w)
  | .crcchk => .crcchk (imm8Field w)
  | .delay => .delay (imm16Field w)

/-- Whether some row has this OP value (R75 (a)): every mask covers w[31:24] (R73). -/
def opAssigned (op : Byte) : Bool := opcodeTable.any (fun r => opField r.pattern == op)

/-- The decoder: the selected row's command, or the reason the word is illegal (R73 to R75). -/
def decode (w : Word) : Except DecodeError Instr :=
  match selectRow w with
  | some r => .ok (r.mnemonic.build w)
  | none => if opAssigned (opField w) then .error .reservedBitSet else .error .unassignedOp

/-- The decoder on bytes, in the register interface's little-endian order (R53), with the bytes left over. -/
def decodeBytes : List Byte → Except DecodeError (Instr × List Byte)
  | b0 :: b1 :: b2 :: b3 :: rest =>
    match decode (wordOfBytes b0 b1 b2 b3) with
    | .ok i => .ok (i, rest)
    | .error e => .error e
  | _ => .error .truncated

/-- The word of an instruction whose table bits are w, as `decodeTableWord` and `withFetchWord` read it: bits above
nbits are 0. -/
def tableWord (nbits w : Nat) : Word := BitVec.ofNat 32 (w % 2 ^ nbits)

/-- The command the decoder reads from an instruction of nbits table bits w: every command word is one 32-bit word (R70). -/
def decodeTableWord (nbits w : Nat) : Option Instr :=
  if nbits ≤ 32 then
    match decodeBytes (wordBytes (tableWord nbits w)) with
    | .ok (i, _) => some i
    | .error _ => none
  else none

/-- Format N, no operand: OP, then zeros (R71). -/
def encodeN (op : Byte) : Word := op ++ 0#24

/-- Format B: OP, zeros, imm8 (R71). -/
def encodeB (op : Byte) (imm8 : Byte) : Word := op ++ 0#16 ++ imm8

/-- Format A: OP, zeros, the acknowledge policy in bit 0 (R71). -/
def encodeA (op : Byte) (a : AckPolicy) : Word := op ++ 0#23 ++ a.bit

/-- Format D: OP, RZ = 0, imm16 (R71). -/
def encodeD (op : Byte) (imm16 : BitVec 16) : Word := op ++ 0#8 ++ imm16

/-- The word of a command, from the formats of R71 and the OP values of R73. -/
def encode : Instr → Word
  | .init => encodeN 0x01#8
  | .start => encodeN 0x02#8
  | .stop => encodeN 0x03#8
  | .write imm8 => encodeB 0x04#8 imm8
  | .read a => encodeA 0x05#8 a
  | .crcinit => encodeN 0x10#8
  | .crcupd imm8 => encodeB 0x11#8 imm8
  | .crcchk imm8 => encodeB 0x12#8 imm8
  | .delay imm16 => encodeD 0x20#8 imm16

/-- The mnemonic of a command (R73). -/
def Instr.mnemonic : Instr → Mnemonic
  | .init => .init
  | .start => .start
  | .stop => .stop
  | .write _ => .write
  | .read _ => .read
  | .crcinit => .crcinit
  | .crcupd _ => .crcupd
  | .crcchk _ => .crcchk
  | .delay _ => .delay

end Sys2Proof
end

