-- ==== Sys2Proof/Config.lean ====
section
/-! DEFINITION. The platform parameters the model takes as arguments (spec/00_scope.md R9), and the one free value of
the model: the level of the data line when the bus devices decide it (spec/41_byte_transfer.md R116). -/

namespace Sys2Proof

/-- The implementation parameters of R9, fixed for a whole run (`State.cfg`, which no step changes). Every one is
OPEN in the spec; times are natural numbers of microseconds. -/
structure Config where
  /-- `BASE` divided by 16: BASE is a u32 and a multiple of 16 (R9, R50). -/
  baseBlock : BitVec 28
  /-- `T_BRIEF`, each "brief delay" in START and STOP. -/
  tBrief : Nat
  /-- `T_HD_STA`, start-condition hold. -/
  tHdSta : Nat
  /-- `T_SU_STO`, stop-condition setup. -/
  tSuSto : Nat
  /-- `T_SETTLE`, the final delay of START and STOP. -/
  tSettle : Nat
  /-- `T_SU_DAT`, data setup, and the time before the write acknowledge sample. -/
  tSuDat : Nat
  /-- `T_HIGH`, clock-high hold. -/
  tHigh : Nat
  /-- `T_HD_DAT`, the delay after each clock fall of a data bit. -/
  tHdDat : Nat
  /-- `T_TRAIL`, the final delay of WRITE and READ. -/
  tTrail : Nat
  /-- `G_DELAY`, the granularity of the timing controller: no rule depends on it (R152). -/
  gDelay : Nat
  deriving DecidableEq, Repr

/-- `BASE`, the host address of register offset 0: a multiple of 16 by construction (R9, R50). -/
def Config.base (c : Config) : Word := c.baseBlock ++ 0#4

/-- DESIGN CHOICE (log 2): the values `State.reset` takes. The times are the reference configuration of
spec/92_eei_decisions.md D12, "for examples only"; BASE 0 and G_DELAY 10 are the model's. No statement rests on them. -/
def Config.reference : Config where
  baseBlock := 0
  tBrief := 1
  tHdSta := 10
  tSuSto := 10
  tSettle := 10
  tSuDat := 1
  tHigh := 5
  tHdDat := 1
  tTrail := 20
  gDelay := 10

/-- FREE VALUE (R116, log 3): the level of the data line at the n-th draw, when the environment has prepared none in
`State.busIn`. It has no body that a proof can see. -/
opaque Config.freeSample : Nat → Bool

end Sys2Proof
end

