-- ==== Sys2Proof/Machine/State.lean ====
section
/-! DEFINITION. The machine's state as plain data: the state vector of spec/10_state.md R22, the platform parameters
(spec/00_scope.md R9), what the host, the platform and the bus devices do next (R7), and the line trace (R12). -/

namespace Sys2Proof.Machine

/-- An event of the line trace (R12). There is no event that drives a line high: the engine never does. -/
inductive Event where
  /-- `Low(L)`: the engine pulls L low. -/
  | low (l : Line)
  /-- `Rel(L)`: the engine stops driving L. -/
  | rel (l : Line)
  /-- `Wait(t)`: at least t microseconds pass before the next primitive (R151). -/
  | wait (t : Nat)
  /-- `Samp(b)`: the data line was sampled at level b. -/
  | samp (b : Bool)
  deriving DecidableEq, Repr

/-- What one reset leaves open (R40, R231): the values RX and CRC take, and which line is released first. -/
structure ResetDraw where
  rx : Byte
  crc : Byte
  sclFirst : Bool
  deriving DecidableEq, Repr

/-- What one protocol operation of the host does (R183, R213; log 12): it enters, makes its accesses, and leaves. Its
accesses are those of `HostInput` by the same names. -/
inductive OperationEvent where
  | enter
  | read (addr : Word) (n : Nat)
  | write (addr : Word) (n : Nat) (v : Word)
  | cutWrite (addr : Word) (n : Nat) (v : Word) (k : Nat) (d : ResetDraw)
  | leave
  deriving DecidableEq, Repr

/-- Something the host or the platform does to the block (R7, R213, R230, R231). Widths are in bytes. -/
inductive HostInput where
  /-- The host loads n bytes at an address (R51, R52). -/
  | read (addr : Word) (n : Nat)
  /-- The host stores the value v, n bytes wide, at an address (R51, R52). -/
  | write (addr : Word) (n : Nat) (v : Word)
  /-- An agent other than the host accesses an address (R213). -/
  | foreignAccess (addr : Word)
  /-- The platform resets the block while the engine is idle (R230). -/
  | reset (d : ResetDraw)
  /-- The host stores v as in `write`, and a reset abandons the command after its first k line actions (R231). -/
  | cutWrite (addr : Word) (n : Nat) (v : Word) (k : Nat) (d : ResetDraw)
  /-- The host's protocol operation number id does something (R213). The other accesses belong to no operation. -/
  | operation (id : Nat) (e : OperationEvent)
  deriving DecidableEq, Repr

/-- The error conditions (spec/60_exceptions.md R201). -/
inductive Condition where
  | acknowledgeError
  | checksumError
  | illegalCommand
  | illegalAccess
  | sequenceError
  deriving DecidableEq, Repr

/-- The machine. The ten elements of R22, then the model's own fields. -/
structure State where
  /-- SDA_LOW: the engine drives the data line low. -/
  sdaLow : Bool
  /-- SCL_LOW: the engine drives the clock line low. -/
  sclLow : Bool
  /-- STATUS.INIT: an INIT has executed since reset. -/
  init : Bool
  /-- STATUS.ACKERR: the last WRITE was not acknowledged. -/
  ackerr : Bool
  /-- STATUS.CRCERR: the last CRCCHK found a difference. -/
  crcerr : Bool
  /-- STATUS.ILLCMD, sticky: an illegal command word was written. -/
  illcmd : Bool
  /-- STATUS.ILLACC, sticky: an illegal register access was made. -/
  illacc : Bool
  /-- STATUS.SEQERR, sticky: a bus command was written while INIT = 0. -/
  seqerr : Bool
  /-- RX: the byte of the last READ. -/
  rx : Byte
  /-- CRC: the CRC-8 accumulator. -/
  crc : Byte
  /-- The platform parameters (R9); no step changes them. -/
  cfg : Config
  /-- What the host and the platform do next, oldest first (log 4). -/
  inputs : List HostInput
  /-- The draws the bus devices will give, oldest first (R116, log 3). -/
  busIn : List Bool
  /-- How many draws have been taken: it numbers the free values (log 3). -/
  sampleCount : Nat
  /-- The line trace so far, oldest first (R12, log 6). -/
  trace : List Event
  /-- The values the host's reads have returned, oldest first (log 7). -/
  readLog : List Word
  /-- The protocol operation the host is in the middle of, if any (R213, log 12). -/
  operation : Option Nat
  deriving DecidableEq, Repr

/-- Reasons to stop with a fault: NONE. "The block has no trap, exception vector or abort" (R200): every error
condition is a STATUS bit and the engine accepts the next command (log 15). -/
inductive Fault where
  deriving DecidableEq, Repr

/-- Reasons to refuse. -/
inductive Refusal where
  /-- Raised by an arm of `exec` that has no meaning yet: none is left. Safe: the model stops. -/
  | notModelled (mnemonic : String)
  /-- Raised by `step` on a `foreignAccess` inside the register window: R213, "a model refuses any run in which a
  second host agent accesses the register window". Safe: the model stops. -/
  | secondHostAgent
  /-- Raised by `step` when a protocol operation enters before another has left, or when an operation other than the
  one in progress makes an access or leaves: R213, "or in which host accesses of two protocol operations interleave".
  Safe: the model stops. -/
  | interleavedOperations
  /-- Raised by the host protocol's `readCommandResultWithTimeout` when maxRetries = 0: R178, "a call with
  maxRetries = 0 is refused". Never by a command or a step. Safe: the model stops. -/
  | zeroRetries
  deriving DecidableEq, Repr

/-- The block right after power-on for parameters c, RX and CRC at the draws rx and crc, and nothing done yet (R40). -/
def State.afterReset (c : Config) (rx crc : Byte) : State where
  sdaLow := false
  sclLow := false
  init := false
  ackerr := false
  crcerr := false
  illcmd := false
  illacc := false
  seqerr := false
  rx := rx
  crc := crc
  cfg := c
  inputs := []
  busIn := []
  sampleCount := 0
  trace := []
  readLog := []
  operation := none

/-- The machine after reset (R40, R230). R40 leaves RX and CRC unspecified: DESIGN CHOICE 0 (log 1). The parameters
are OPEN: DESIGN CHOICE the reference values (log 2). -/
def State.reset : State := State.afterReset Config.reference 0 0

end Sys2Proof.Machine
end

