-- ==== Sys2Proof/Machine/Ops.lean ====
section
/-! DEFINITION. The shared operations: the line primitives (spec/00_scope.md R12), sampling (spec/41_byte_transfer.md
R116), the pins (spec/10_state.md R24, R25), line actions in program order (R13), and recording an error condition
(R11 `raise`, spec/60_exceptions.md R201). There is no trap entry and no return to model (R210). -/

namespace Sys2Proof.Machine

/-- Line resolution, the wired-AND of R25: low when the engine or a device drives the line low, else high. -/
def lineLevel (engineLow deviceLow : Bool) : Bool := !(engineLow || deviceLow)

/-- Pin SDA_OE (R24). -/
def State.sdaOe (s : State) : Bool := s.sdaLow

/-- Pin SCL_OE (R24). -/
def State.sclOe (s : State) : Bool := s.sclLow

/-- Append one event to the line trace (R12). -/
def emit (e : Event) (s : State) : State := { s with trace := s.trace ++ [e] }

/-- Set the engine's drive state of a line. -/
def setDrive (l : Line) (v : Bool) (s : State) : State :=
  match l with
  | .sda => { s with sdaLow := v }
  | .scl => { s with sclLow := v }

/-- `DriveLow(L)` (R12). -/
def driveLow (l : Line) (s : State) : State := emit (.low l) (setDrive l true s)

/-- `Release(L)` (R12). -/
def release (l : Line) (s : State) : State := emit (.rel l) (setDrive l false s)

/-- `Wait(t)` (R12, R151): an event and nothing else; the model has no clock. -/
def wait (t : Nat) (s : State) : State := emit (.wait t) s

/-- The next draw: what the bus devices have prepared, or else a free value (R116, log 3). -/
def State.nextDraw (s : State) : Bool :=
  match s.busIn with
  | b :: _ => b
  | [] => Config.freeSample s.sampleCount

/-- The state after one draw is taken. -/
def State.advance (s : State) : State :=
  { s with busIn := s.busIn.tail, sampleCount := s.sampleCount + 1 }

/-- The next n draws, in order. -/
def State.draws : Nat → State → List Bool
  | 0, _ => []
  | n + 1, s => s.nextDraw :: State.draws n s.advance

/-- `b <- Sample(SDA)` (R12, R116): 0 while the engine itself drives the line low, else a draw. -/
def sampleSda (s : State) : Bool × State :=
  if s.sdaLow then (lineLevel true false, emit (.samp (lineLevel true false)) s)
  else
    let b := lineLevel false (!s.nextDraw)
    (b, emit (.samp b) s.advance)

/-- One primitive of a bus command's pseudocode (R90 to R92, R111, R112). -/
inductive Action where
  | driveLow (l : Line)
  | release (l : Line)
  | wait (t : Nat)
  /-- READ: `r[i] <- Sample(SDA)`, into the partial byte of the command. -/
  | sampleBit (i : Nat)
  /-- WRITE: `STATUS.ACKERR <- Sample(SDA)`. -/
  | sampleAck
  /-- READ: `RX <- r`. -/
  | storeRx
  /-- INIT: `STATUS.INIT <- 1`. -/
  | setInit
  deriving DecidableEq, Repr

/-- Perform one primitive; r is the partial byte, internal to the command (R22). -/
def perform (a : Action) (r : Byte) (s : State) : Byte × State :=
  match a with
  | .driveLow l => (r, Sys2Proof.Machine.driveLow l s)
  | .release l => (r, Sys2Proof.Machine.release l s)
  | .wait t => (r, Sys2Proof.Machine.wait t s)
  | .sampleBit i => (setBit r i (sampleSda s).1, (sampleSda s).2)
  | .sampleAck => (r, { (sampleSda s).2 with ackerr := (sampleSda s).1 })
  | .storeRx => (r, { s with rx := r })
  | .setInit => (r, { s with init := true })

/-- Perform primitives in program order (R13), threading the partial byte. -/
def performAll : List Action → Byte → State → Byte × State
  | [], r, s => (r, s)
  | a :: as, r, s => performAll as (perform a r s).1 (perform a r s).2

/-- A command's line actions from its first to its last; the partial byte starts at 0x00 (R112) and is dropped. -/
def runActions (as : List Action) (s : State) : State := (performAll as 0#8 s).2

/-- `raise` (R11, R201): record a condition in its STATUS bit; nothing else changes and nothing is saved (R200, R210).
Bits 0 and 1 are written by WRITE and CRCCHK with their result, so for those two conditions this sets the bit. -/
def raiseCondition (c : Condition) (s : State) : State :=
  match c with
  | .acknowledgeError => { s with ackerr := true }
  | .checksumError => { s with crcerr := true }
  | .illegalCommand => { s with illcmd := true }
  | .illegalAccess => { s with illacc := true }
  | .sequenceError => { s with seqerr := true }

/-- A bus command (START, STOP, WRITE, READ): its actions, or SequenceError and nothing performed while INIT = 0
(R33, R74). -/
def busCommand (as : List Action) (s : State) : State :=
  if s.init then runActions as s else raiseCondition .sequenceError s

/-- Continue with a completed step's result; a fault or a refusal stands. -/
def andThen {α β : Type} (o : Host.Outcome α Fault Refusal) (f : α → Host.Outcome β Fault Refusal) :
    Host.Outcome β Fault Refusal :=
  match o with
  | .next a => f a
  | .fault r => .fault r
  | .refused r => .refused r

end Sys2Proof.Machine
end

