-- ==== Sys2Proof/Machine/BusConditions.lean ====
section
/-! DEFINITION. INIT, START and STOP (spec/40_bus_conditions.md R90 to R92). -/

namespace Sys2Proof.Machine

/-- The primitives of INIT: data first, then clock, no `Wait` (R90). -/
def initActions : List Action :=
  [.release .sda, .release .scl, .setInit]

/-- The primitives of START: data falls while the clock is released, then the clock goes low (R91). -/
def startActions (c : Config) : List Action :=
  [ .release .sda, .wait c.tBrief,
    .release .scl, .wait c.tBrief,
    .driveLow .sda, .wait c.tHdSta,
    .driveLow .scl, .wait c.tSettle ]

/-- The primitives of STOP: both low, then data rises while the clock is released (R92). -/
def stopActions (c : Config) : List Action :=
  [ .driveLow .scl, .wait c.tBrief,
    .driveLow .sda, .wait c.tBrief,
    .release .scl, .wait c.tSuSto,
    .release .sda, .wait c.tSettle ]

/-- INIT (R90): legal in every state. -/
def execInit (s : State) : Host.Outcome State Fault Refusal := .next (runActions initActions s)

/-- START (R91). -/
def execStart (s : State) : Host.Outcome State Fault Refusal := .next (busCommand (startActions s.cfg) s)

/-- STOP (R92). -/
def execStop (s : State) : Host.Outcome State Fault Refusal := .next (busCommand (stopActions s.cfg) s)

end Sys2Proof.Machine
end

