-- ==== Sys2Proof/Machine/ByteTransfer.lean ====
section
/-! DEFINITION. WRITE and READ (spec/41_byte_transfer.md R110 to R119). -/

namespace Sys2Proof.Machine

/-- WRITE, data bit i: the line takes the bit's value, then one clock pulse (R111). -/
def writeBitActions (c : Config) (imm8 : Byte) (i : Nat) : List Action :=
  [ (if imm8.getLsbD i then .release .sda else .driveLow .sda), .wait c.tSuDat,
    .release .scl, .wait c.tHigh,
    .driveLow .scl, .wait c.tHdDat ]

/-- WRITE, the ninth clock pulse: release the data line and sample the acknowledge (R111). -/
def writeAckActions (c : Config) : List Action :=
  [.release .sda, .release .scl, .wait c.tSuDat, .sampleAck, .driveLow .scl, .wait c.tTrail]

/-- The primitives of WRITE imm8 (R111). -/
def writeActions (c : Config) (imm8 : Byte) : List Action :=
  bitsDown.flatMap (writeBitActions c imm8) ++ writeAckActions c

/-- READ, data bit i: one clock pulse, sampled at the end of its high time (R112). R119 names a longer low time than these
actions give; R112's list is followed (log 19). -/
def readBitActions (c : Config) (i : Nat) : List Action :=
  [.release .scl, .wait c.tHigh, .sampleBit i, .driveLow .scl, .wait c.tHdDat]

/-- READ, the ninth clock pulse: the engine drives or releases the acknowledge (R112). -/
def readAckActions (c : Config) (a : AckPolicy) : List Action :=
  [ (match a with | .ack => .driveLow .sda | .nack => .release .sda), .wait c.tSuDat,
    .release .scl, .wait c.tHigh,
    .driveLow .scl, .release .sda, .wait c.tTrail, .storeRx ]

/-- The primitives of READ A (R112). -/
def readActions (c : Config) (a : AckPolicy) : List Action :=
  .release .sda :: bitsDown.flatMap (readBitActions c) ++ readAckActions c a

/-- WRITE (R111). -/
def execWrite (imm8 : Byte) (s : State) : Host.Outcome State Fault Refusal :=
  .next (busCommand (writeActions s.cfg imm8) s)

/-- READ (R112). -/
def execRead (a : AckPolicy) (s : State) : Host.Outcome State Fault Refusal :=
  .next (busCommand (readActions s.cfg a) s)

end Sys2Proof.Machine
end

