-- ==== Sys2Proof/Machine/Crc.lean ====
section
/-! DEFINITION. The CRC-8 unit (spec/42_crc.md R130 to R137). -/

namespace Sys2Proof.Machine

/-- One of the eight iterations of R130: shift left, dropping bit 7, and XOR 0x31 if it was set. -/
def crcShift (c : Byte) : Byte := if c.getLsbD 7 then (c <<< 1) ^^^ 0x31#8 else c <<< 1

/-- k iterations of `crcShift`. -/
def crcShifts : Nat → Byte → Byte
  | 0, c => c
  | k + 1, c => crcShifts k (crcShift c)

/-- `crc_step(c, b)` (R130). -/
def crcStep (c b : Byte) : Byte := crcShifts 8 (c ^^^ b)

/-- The CRC of a byte sequence, from 0x00 (R130, the source's `CheckCrc`). -/
def crcOf (ds : List Byte) : Byte := ds.foldl crcStep 0#8

/-- Long division by the polynomial 0x131, x⁸ + x⁵ + x⁴ + 1, over GF(2): subtract it, shifted by k - 1 down to 0,
wherever the leading coefficient is 1 (R130). What is left is the remainder. -/
def divideBy131 : Nat → BitVec 16 → BitVec 16
  | 0, v => v
  | k + 1, v => divideBy131 k (if v.getLsbD (k + 8) then v ^^^ (0x131#16 <<< k) else v)

/-- The remainder of v(x)·x⁸ modulo 0x131 (R130). -/
def polyRemainder (v : Byte) : Byte := (divideBy131 8 (v ++ 0#8)).extractLsb' 0 8

/-- CRCINIT (R131). -/
def execCrcinit (s : State) : Host.Outcome State Fault Refusal := .next { s with crc := 0#8 }

/-- CRCUPD (R132). -/
def execCrcupd (imm8 : Byte) (s : State) : Host.Outcome State Fault Refusal :=
  .next { s with crc := crcStep s.crc imm8 }

/-- CRCCHK (R133): the result replaces CRCERR. -/
def execCrcchk (imm8 : Byte) (s : State) : Host.Outcome State Fault Refusal :=
  .next { s with crcerr := s.crc != imm8 }

end Sys2Proof.Machine
end

