-- ==== Sys2Proof/Machine/Timing.lean ====
section
/-! DEFINITION. DELAY (spec/43_timing.md R150 to R155). -/

namespace Sys2Proof.Machine

/-- The primitives of DELAY imm16 (R153). -/
def delayActions (imm16 : BitVec 16) : List Action := [.wait imm16.toNat]

/-- DELAY (R153): legal before INIT; never sets SEQERR. -/
def execDelay (imm16 : BitVec 16) (s : State) : Host.Outcome State Fault Refusal :=
  .next (runActions (delayActions imm16) s)

end Sys2Proof.Machine
end

