-- ==== Sys2Proof/Machine/Dispatch.lean ====
section
/-! DEFINITION. One arm per command: `exec` performs a decoded command (spec/30_encoding.md R74, "perform row.rule"). -/

namespace Sys2Proof.Machine

def exec (i : Instr) (s : State) : Host.Outcome State Fault Refusal :=
  match i with
  | .init => Sys2Proof.Machine.execInit s
  | .start => Sys2Proof.Machine.execStart s
  | .stop => Sys2Proof.Machine.execStop s
  | .write imm8 => Sys2Proof.Machine.execWrite imm8 s
  | .read a => Sys2Proof.Machine.execRead a s
  | .crcinit => Sys2Proof.Machine.execCrcinit s
  | .crcupd imm8 => Sys2Proof.Machine.execCrcupd imm8 s
  | .crcchk imm8 => Sys2Proof.Machine.execCrcchk imm8 s
  | .delay imm16 => Sys2Proof.Machine.execDelay imm16 s

end Sys2Proof.Machine
end

