-- ==== Sys2Proof/Machine/Flags.lean ====
section
/-! DEFINITION. The STATUS register and its conditions (spec/10_state.md R28, R35, spec/60_exceptions.md R201), and the
other readable registers (R37, R38). -/

namespace Sys2Proof.Machine

/-- A condition's code is its STATUS bit position (R201). -/
def Condition.code : Condition → Nat
  | .acknowledgeError => 0
  | .checksumError => 1
  | .illegalCommand => 2
  | .illegalAccess => 3
  | .sequenceError => 4

/-- A condition's STATUS bit in a state (R201). -/
def State.condition (s : State) : Condition → Bool
  | .acknowledgeError => s.ackerr
  | .checksumError => s.crcerr
  | .illegalCommand => s.illcmd
  | .illegalAccess => s.illacc
  | .sequenceError => s.seqerr

/-- One STATUS bit in its place. -/
def statusBit (b : Bool) (pos : Nat) : Word := if b then 1#32 <<< pos else 0

/-- STATUS (R28): bits 0 to 4 the conditions, 8 INIT, 16 and 17 the drive states; every other bit is reserved and
reads 0 (R36). -/
def State.status (s : State) : Word :=
  statusBit s.ackerr 0 ||| statusBit s.crcerr 1 ||| statusBit s.illcmd 2 ||| statusBit s.illacc 3 |||
    statusBit s.seqerr 4 ||| statusBit s.init 8 ||| statusBit s.sdaLow 16 ||| statusBit s.sclLow 17

/-- RXDATA (R37): RX in bits 7:0, the rest 0. -/
def State.rxdata (s : State) : Word := s.rx.zeroExtend 32

/-- CRCVAL (R38): CRC in bits 7:0, the rest 0. -/
def State.crcval (s : State) : Word := s.crc.zeroExtend 32

end Sys2Proof.Machine
end

