-- ==== Sys2Proof/Machine/RegisterInterface.lean ====
section
/-! DEFINITION. The register interface (spec/20_memory.md R50 to R59, spec/10_state.md R26 to R38) and `Execute`
(spec/30_encoding.md R74). -/

namespace Sys2Proof.Machine

/-- `off <- addr - BASE` (R52). -/
def offset (c : Config) (addr : Word) : Word := addr - c.base

/-- Whether an address is in the block's window, BASE + 0x00 to BASE + 0x0F (R50). An access is placed by the address
of its first byte (log 8). -/
def inWindow (c : Config) (addr : Word) : Bool := decide ((offset c addr).toNat < 16)

/-- The legal accesses: four bytes at a multiple of 4 (R51, R52). -/
def legalShape (c : Config) (addr : Word) (n : Nat) : Bool :=
  (n == 4) && ((offset c addr).extractLsb' 0 2 == 0#2)

/-- `Execute(w)` (R74): illegal, else the command, which itself checks the sequence. -/
def execute (w : Word) (s : State) : Host.Outcome State Fault Refusal :=
  match decode w with
  | .ok i => exec i s
  | .error _ => .next (raiseCondition .illegalCommand s)

/-- `MemRead(addr, n)` of R52, for an address in the window: the value returned, and the state after. -/
def memRead (addr : Word) (n : Nat) (s : State) : Word × State :=
  if legalShape s.cfg addr n then
    if offset s.cfg addr = 0x00#32 then (0#32, s)
    else if offset s.cfg addr = 0x04#32 then (s.status, s)
    else if offset s.cfg addr = 0x08#32 then (s.rxdata, s)
    else (s.crcval, s)
  else (0#32, raiseCondition .illegalAccess s)

/-- `MemWrite(addr, n, v)` of R52, for an address in the window. -/
def memWrite (addr : Word) (n : Nat) (v : Word) (s : State) : Host.Outcome State Fault Refusal :=
  if legalShape s.cfg addr n then
    if offset s.cfg addr = 0x00#32 then execute v s
    else .next (raiseCondition .illegalAccess s)
  else .next (raiseCondition .illegalAccess s)

/-- A host load: inside the window `MemRead`, whose value the host receives; outside, it does not reach the block
(R50, log 8). -/
def hostRead (addr : Word) (n : Nat) (s : State) : State :=
  if inWindow s.cfg addr then
    { (memRead addr n s).2 with readLog := s.readLog ++ [(memRead addr n s).1] }
  else s

/-- A host store: inside the window `MemWrite`; outside, it does not reach the block (R50, log 8). -/
def hostWrite (addr : Word) (n : Nat) (v : Word) (s : State) : Host.Outcome State Fault Refusal :=
  if inWindow s.cfg addr then memWrite addr n v s else .next s

/-- An access of a second host agent: refused inside the window (R213), no business of the block outside. -/
def foreignAccess (addr : Word) (s : State) : Host.Outcome State Fault Refusal :=
  if inWindow s.cfg addr then .refused .secondHostAgent else .next s

/-- Commands written one after another: each CMD write blocks until its command has ended (R57, R62). -/
def runCommands : List Instr → State → Host.Outcome State Fault Refusal
  | [], s => .next s
  | i :: is, s => andThen (exec i s) (runCommands is)

end Sys2Proof.Machine
end

