-- ==== Sys2Proof/Machine/ResetOps.lean ====
section
/-! DEFINITION. Reset between commands and reset during a command (spec/70_reset_and_hazards.md R230, R231). -/

namespace Sys2Proof.Machine

/-- A command's line actions (R8); the CRC commands have none (R137). -/
def lineActions (c : Config) : Instr → List Action
  | .init => initActions
  | .start => startActions c
  | .stop => stopActions c
  | .write imm8 => writeActions c imm8
  | .read a => readActions c a
  | .crcinit => []
  | .crcupd _ => []
  | .crcchk _ => []
  | .delay imm16 => delayActions imm16

/-- Whether a command is refused with SequenceError while INIT = 0 (R33). -/
def isBusCommand : Instr → Bool
  | .start => true
  | .stop => true
  | .write _ => true
  | .read _ => true
  | .init => false
  | .crcinit => false
  | .crcupd _ => false
  | .crcchk _ => false
  | .delay _ => false

/-- The two releases of a reset, in the order drawn (R231, log 10). -/
def resetReleases (sclFirst : Bool) (s : State) : State :=
  if sclFirst then release .sda (release .scl s) else release .scl (release .sda s)

/-- Reset (R230, R231): both lines are released, then every element of R22 has the value R40 gives it, RX and CRC the
draws. What is outside the block stays: parameters, host, devices, and the record of what happened. -/
def resetBlock (d : ResetDraw) (s : State) : State :=
  { resetReleases d.sclFirst s with
    init := false, ackerr := false, crcerr := false, illcmd := false, illacc := false, seqerr := false,
    rx := d.rx, crc := d.crc }

/-- The line actions a host store would start: those of a legal CMD write of a command that is not refused; none
otherwise (R33, R52, R75). -/
def storeActions (addr : Word) (n : Nat) (v : Word) (s : State) : List Action :=
  if inWindow s.cfg addr && legalShape s.cfg addr n && (offset s.cfg addr == 0x00#32) then
    match decode v with
    | .ok i => if isBusCommand i && !s.init then [] else lineActions s.cfg i
    | .error _ => []
  else []

/-- A host store abandoned by reset after its first k line actions (R231): "its remaining line actions are not
performed". -/
def cutWrite (addr : Word) (n : Nat) (v : Word) (k : Nat) (d : ResetDraw) (s : State) : State :=
  resetBlock d (runActions ((storeActions addr n v s).take k) s)

end Sys2Proof.Machine
end

