-- ==== Sys2Proof/Machine/Inputs.lean ====
section
/-! DEFINITION. What one input of the host or the platform does to the block (spec/00_scope.md R7). -/

namespace Sys2Proof.Machine

/-- What protocol operation number id does, o, if it is the one in progress (R213, log 12). -/
def ifInProgress (id : Nat) (s : State) (o : Host.Outcome State Fault Refusal) : Host.Outcome State Fault Refusal :=
  if s.operation = some id then o else .refused .interleavedOperations

/-- Protocol operations take turns (R183): one may enter only when none is in progress, and only the one in progress
makes accesses and leaves. A run in which two interleave is refused (R213). -/
def performOperation (id : Nat) (e : OperationEvent) (s : State) : Host.Outcome State Fault Refusal :=
  match e with
  | .enter =>
    if s.operation = none then .next { s with operation := some id } else .refused .interleavedOperations
  | .read addr n => ifInProgress id s (.next (hostRead addr n s))
  | .write addr n v => ifInProgress id s (hostWrite addr n v s)
  | .cutWrite addr n v k d => ifInProgress id s (.next (cutWrite addr n v k d s))
  | .leave => ifInProgress id s (.next { s with operation := none })

/-- Perform one input (R51, R52, R213, R230, R231). -/
def performInput (h : HostInput) (s : State) : Host.Outcome State Fault Refusal :=
  match h with
  | .read addr n => .next (hostRead addr n s)
  | .write addr n v => hostWrite addr n v s
  | .foreignAccess addr => foreignAccess addr s
  | .reset d => .next (resetBlock d s)
  | .cutWrite addr n v k d => .next (cutWrite addr n v k d s)
  | .operation id e => performOperation id e s

/-- s with one more input before those it has: the next thing that happens to the block. -/
def State.withInput (h : HostInput) (s : State) : State := { s with inputs := h :: s.inputs }

end Sys2Proof.Machine
end

