-- ==== Sys2Proof/Machine/Step.lean ====
section
/-! DEFINITION. One step: the next thing the host or the platform does (spec/10_state.md R21, spec/20_memory.md R57,
R58). The engine fetches nothing: a command word arrives as a host store to CMD. -/

namespace Sys2Proof.Machine

/-- One step of the machine. With nothing to do the engine is idle (R21; spec/93_implementation_defined.md U25). -/
def step (s : State) : Host.Outcome State Fault Refusal :=
  match s.inputs with
  | [] => .next s
  | h :: rest => performInput h { s with inputs := rest }

/-- s with the host's next action a store of the instruction's word to CMD: this is where the engine gets its next
command (R21, R27; log 4). -/
def State.withFetchWord (s : State) (nbits w : Nat) : State :=
  s.withInput (.write s.cfg.base 4 (tableWord nbits w))

end Sys2Proof.Machine
end

