-- ==== Sys2Proof/Machine/Assembler.lean ====
section
/-! DEFINITION. The assembler of spec/30_encoding.md R76 and R77: the text of a line, the line's commands, their
words. -/

namespace Sys2Proof

/-- `DELAYL n` (R77): q copies of DELAY 65535, then DELAY r if r > 0 or q = 0. -/
def delaylExpansion (n : Nat) : List Instr :=
  List.replicate (n / 65535) (.delay 65535) ++
    (if n % 65535 > 0 ∨ n / 65535 = 0 then [.delay (BitVec.ofNat 16 (n % 65535))] else [])

/-- `CHECKCRC e, d0, ..., dk-1` (R77). -/
def checkcrcExpansion (e : Byte) (ds : List Byte) : List Instr :=
  .crcinit :: ds.map .crcupd ++ [.crcchk e]

/-- The commands of a well-formed line (R76, R77). -/
def Asm.expansion : Asm → List Instr
  | .init => [.init]
  | .start => [.start]
  | .stop => [.stop]
  | .write b => [.write (BitVec.ofNat 8 b)]
  | .read a => [.read a]
  | .crcinit => [.crcinit]
  | .crcupd b => [.crcupd (BitVec.ofNat 8 b)]
  | .crcchk e => [.crcchk (BitVec.ofNat 8 e)]
  | .delay n => [.delay (BitVec.ofNat 16 n)]
  | .nop => [.delay 0]
  | .checkcrc e ds => checkcrcExpansion (BitVec.ofNat 8 e) (ds.map (BitVec.ofNat 8))
  | .delayl n => delaylExpansion n
  | .addrw a => [.write (addressByte (BitVec.ofNat 7 a) false)]
  | .addrr a => [.write (addressByte (BitVec.ofNat 7 a) true)]

/-- The words of a line, or an assembly error when an operand is out of range: "never a truncation" (R76). -/
def assemble (l : Asm) : Option (List Word) :=
  if l.wellFormed then some (l.expansion.map encode) else none

/-- The value of a digit in base 10 or 16. -/
def digitValue (base : Nat) (c : Char) : Option Nat :=
  let v := if '0'.toNat ≤ c.toNat ∧ c.toNat ≤ '9'.toNat then some (c.toNat - '0'.toNat)
    else if 'A'.toNat ≤ c.toNat ∧ c.toNat ≤ 'F'.toNat then some (c.toNat - 'A'.toNat + 10)
    else none
  v.bind (fun d => if d < base then some d else none)

/-- The number a nonempty list of digits writes. -/
def digitsValue (base : Nat) : List Char → Nat → Option Nat
  | [], acc => some acc
  | c :: cs, acc => (digitValue base c).bind (fun d => digitsValue base cs (acc * base + d))

/-- An operand: decimal, or hexadecimal with `0x` (R76), in upper case. -/
def parseNumber : List Char → Option Nat
  | [] => none
  | '0' :: 'X' :: c :: cs => digitsValue 16 (c :: cs) 0
  | c :: cs => digitsValue 10 (c :: cs) 0

/-- A letter in upper case: mnemonics are case-insensitive (R76). -/
def upperChar (c : Char) : Char :=
  if 'a'.toNat ≤ c.toNat ∧ c.toNat ≤ 'z'.toNat then Char.ofNat (c.toNat - 32) else c

/-- Whether a character is white space inside a line. -/
def isBlank (c : Char) : Bool := c == ' ' || c == '\t'

/-- A text without the blanks before and after it. -/
def trimBlanks (cs : List Char) : List Char := ((cs.dropWhile isBlank).reverse.dropWhile isBlank).reverse

/-- The pieces of a text between commas. -/
def splitCommas : List Char → List (List Char)
  | [] => [[]]
  | ',' :: cs => [] :: splitCommas cs
  | c :: cs =>
    match splitCommas cs with
    | p :: ps => (c :: p) :: ps
    | [] => [[c]]

/-- The operands of a line, separated by commas (R77). -/
def operandTexts (cs : List Char) : List (List Char) :=
  if trimBlanks cs = [] then [] else (splitCommas cs).map trimBlanks

/-- The numbers of a list of operand texts. -/
def parseNumbers : List (List Char) → Option (List Nat)
  | [] => some []
  | t :: ts => (parseNumber t).bind (fun n => (parseNumbers ts).map (n :: ·))

/-- A line with its mnemonic and operands apart (R76, R77). -/
def parseParts (m : List Char) (ops : List (List Char)) : Option Asm :=
  match m, ops with
  | ['I', 'N', 'I', 'T'], [] => some .init
  | ['S', 'T', 'A', 'R', 'T'], [] => some .start
  | ['S', 'T', 'O', 'P'], [] => some .stop
  | ['W', 'R', 'I', 'T', 'E'], [b] => (parseNumber b).map .write
  | ['R', 'E', 'A', 'D'], [['A', 'C', 'K']] => some (.read .ack)
  | ['R', 'E', 'A', 'D'], [['N', 'A', 'C', 'K']] => some (.read .nack)
  | ['C', 'R', 'C', 'I', 'N', 'I', 'T'], [] => some .crcinit
  | ['C', 'R', 'C', 'U', 'P', 'D'], [b] => (parseNumber b).map .crcupd
  | ['C', 'R', 'C', 'C', 'H', 'K'], [e] => (parseNumber e).map .crcchk
  | ['D', 'E', 'L', 'A', 'Y'], [n] => (parseNumber n).map .delay
  | ['N', 'O', 'P'], [] => some .nop
  | ['C', 'H', 'E', 'C', 'K', 'C', 'R', 'C'], e :: ds =>
    (parseNumber e).bind (fun e' => (parseNumbers ds).map (.checkcrc e'))
  | ['D', 'E', 'L', 'A', 'Y', 'L'], [n] => (parseNumber n).map .delayl
  | ['A', 'D', 'D', 'R', 'W'], [a] => (parseNumber a).map .addrw
  | ['A', 'D', 'D', 'R', 'R'], [a] => (parseNumber a).map .addrr
  | _, _ => none

/-- A line of assembler text, as its characters (R76, R77; log 17). -/
def parseLine (cs : List Char) : Option Asm :=
  let t := trimBlanks (cs.map upperChar)
  parseParts (t.takeWhile (fun c => !isBlank c)) (operandTexts (t.dropWhile (fun c => !isBlank c)))

end Sys2Proof
end

