-- ==== Sys2Proof/Machine/HostProtocol.lean ====
section
/-! DEFINITION. The host protocol layer (spec/49_host_protocol.md R170 to R183): host software over the block's register
interface, not part of the block (spec/00_scope.md R5). No step calls it; it adds nothing to the block. -/

namespace Sys2Proof.Machine

/-- A protocol session: the block, and "the single mutable fact retained between calls" (R174). -/
structure Session where
  machine : State
  cache : Option (BitVec 16)
  deriving DecidableEq, Repr

/-- An error value: bit 0 `ACK_ERROR` = 1, bit 1 `CHECKSUM_ERROR` = 2, combined by OR; 0 is `NO_ERROR` (R171). -/
abbrev HostErr := BitVec 2

/-- A read's error, the value its `result` argument holds afterwards, and the block. -/
structure ReadResult where
  err : HostErr
  result : BitVec 16
  machine : State
  deriving DecidableEq, Repr

/-- The sensor's 7-bit address, decimal 64 (R172). -/
def sensorAddress : BitVec 7 := 64#7

/-- `FLOW` (R173). -/
def flowCommand : BitVec 16 := 0x1000#16

/-- `SERIAL_HI` (R173). -/
def serialHiCommand : BitVec 16 := 0x31AE#16

/-- `SERIAL_LO` (R173). -/
def serialLoCommand : BitVec 16 := 0x31AF#16

/-- `SOFT_RESET` (R173). -/
def softResetCommand : BitVec 16 := 0x2000#16

/-- `N_FLOW` (R170). -/
def nFlow : Nat := 20

/-- `wr CMD, i` (R78). -/
def wrCmd (i : Instr) (s : State) : Host.Outcome State Fault Refusal := hostWrite s.cfg.base 4 (encode i) s

/-- Several `wr CMD` in order (R57). -/
def wrCmds : List Instr → State → Host.Outcome State Fault Refusal
  | [], s => .next s
  | i :: is, s => andThen (wrCmd i s) (wrCmds is)

/-- `rd` of the register at an offset: the value read, and the state after (R78). -/
def rdReg (off : Word) (s : State) : Word × State :=
  ((memRead (s.cfg.base + off) 4 s).1, hostRead (s.cfg.base + off) 4 s)

/-- `s[0]` of a STATUS value, as `ACK_ERROR` (R171, R176). -/
def ackErr (status : Word) : HostErr := if status.getLsbD 0 then 1#2 else 0#2

/-- `s[1] << 1` of a STATUS value, as `CHECKSUM_ERROR` (R171, R177). -/
def checksumErr (status : Word) : HostErr := if status.getLsbD 1 then 2#2 else 0#2

/-- `wr CMD, WRITE b; rd STATUS -> s`, with its error (R176). -/
def writeByte (b : Byte) (s : State) : Host.Outcome (HostErr × State) Fault Refusal :=
  andThen (wrCmd (.write b) s) fun s1 => .next (ackErr (rdReg 0x04#32 s1).1, (rdReg 0x04#32 s1).2)

/-- `wr CMD, READ a; rd RXDATA -> d`, with the byte (R177). -/
def readByte (a : AckPolicy) (s : State) : Host.Outcome (Byte × State) Fault Refusal :=
  andThen (wrCmd (.read a) s) fun s1 => .next ((rdReg 0x08#32 s1).1.extractLsb' 0 8, (rdReg 0x08#32 s1).2)

/-- `Init()` (R175): the cache stays. -/
def hostInit (ses : Session) : Host.Outcome Session Fault Refusal :=
  andThen (wrCmd .init ses.machine) fun s1 => .next { ses with machine := s1 }

/-- A new protocol instance (R174, R175). -/
def newSession (s : State) : Session := ⟨s, none⟩

/-- `WriteCommand(cmd)` (R176): all three bytes are sent whatever their acknowledges; the cache follows only a fully
acknowledged write. -/
def writeCommand (cmd : BitVec 16) (ses : Session) : Host.Outcome (HostErr × Session) Fault Refusal :=
  andThen (wrCmd .start ses.machine) fun s1 =>
  andThen (writeByte (addressByte sensorAddress false) s1) fun r1 =>
  andThen (writeByte (cmd.extractLsb' 8 8) r1.2) fun r2 =>
  andThen (writeByte (cmd.extractLsb' 0 8) r2.2) fun r3 =>
  andThen (wrCmd .stop r3.2) fun s5 =>
  .next (r1.1 ||| r2.1 ||| r3.1,
    { machine := s5, cache := if r1.1 ||| r2.1 ||| r3.1 = 0#2 then some cmd else ses.cache })

/-- `ReadCommandResult(&result)` (R177): the reads and the checksum check happen whatever the address byte's
acknowledge; `result` is written only without error. -/
def readCommandResult (result : BitVec 16) (s : State) : Host.Outcome ReadResult Fault Refusal :=
  andThen (wrCmd .start s) fun s1 =>
  andThen (writeByte (addressByte sensorAddress true) s1) fun r1 =>
  andThen (readByte .ack r1.2) fun d0 =>
  andThen (readByte .ack d0.2) fun d1 =>
  andThen (readByte .nack d1.2) fun c =>
  andThen (wrCmds (.stop :: checkcrcExpansion c.1 [d0.1, d1.1]) c.2) fun s6 =>
  let e := r1.1 ||| checksumErr (rdReg 0x04#32 s6).1
  .next { err := e, result := if e = 0#2 then d0.1 ++ d1.1 else result, machine := (rdReg 0x04#32 s6).2 }

/-- The loop of R178 with a number of attempts left: the host waits `tRetry` microseconds after every failed attempt,
the last included (spec/92_eei_decisions.md D23). With none left there is no last error to return. -/
def readCommandResultWithTimeout (tRetry : Nat) : Nat → BitVec 16 → State → Host.Outcome ReadResult Fault Refusal
  | 0, _, _ => .refused .zeroRetries
  | n + 1, result, s =>
    andThen (readCommandResult result s) fun r =>
      if r.err = 0#2 then .next r
      else
        andThen (wrCmds (delaylExpansion tRetry) r.machine) fun s1 =>
          if n = 0 then .next { r with machine := s1 }
          else readCommandResultWithTimeout tRetry n r.result s1

/-- `GetFlow(offset, scale, &flow)` (R179). `flowOf` is the OPEN host function for the source's
`(raw - offset) / scale`, an argument (R170; spec/92_eei_decisions.md D25). DESIGN CHOICE (log 16): the spec gives no
types of offset, scale and flow, and here each has any type of its own; raw is the 16-bit result. -/
def getFlow {α β γ : Type} (flowOf : BitVec 16 → α → β → γ) (tRetry : Nat) (offset : α) (scale : β) (flow : γ)
    (ses : Session) : Host.Outcome (HostErr × γ × Session) Fault Refusal :=
  andThen (if ses.cache = some flowCommand then .next (0#2, ses) else writeCommand flowCommand ses) fun w =>
    if w.1 ≠ 0#2 then .next (w.1, flow, w.2)
    else
      andThen (readCommandResultWithTimeout tRetry nFlow 0#16 w.2.machine) fun r =>
        .next (r.err, if r.err = 0#2 then flowOf r.result offset scale else flow, { w.2 with machine := r.machine })

/-- The first or second half of R180: `WriteCommand(cmd)`, then on success `ReadCommandResult`, no retry. -/
def writeThenRead (cmd : BitVec 16) (ses : Session) :
    Host.Outcome (HostErr × BitVec 16 × Session) Fault Refusal :=
  andThen (writeCommand cmd ses) fun w =>
    if w.1 ≠ 0#2 then .next (w.1, 0#16, w.2)
    else andThen (readCommandResult 0#16 w.2.machine) fun r => .next (r.err, r.result, { w.2 with machine := r.machine })

/-- `GetSerialNumber(&serial)` (R180). -/
def getSerialNumber (serial : Word) (ses : Session) : Host.Outcome (HostErr × Word × Session) Fault Refusal :=
  andThen (writeThenRead serialHiCommand ses) fun hi =>
    if hi.1 ≠ 0#2 then .next (hi.1, serial, hi.2.2)
    else
      andThen (writeThenRead serialLoCommand hi.2.2) fun lo =>
        .next (lo.1, if lo.1 = 0#2 then hi.2.1 ++ lo.2.1 else serial, lo.2.2)

/-- `SoftReset()` (R181). -/
def softReset (ses : Session) : Host.Outcome (HostErr × Session) Fault Refusal := writeCommand softResetCommand ses

end Sys2Proof.Machine
end

