-- ==== Sys2Proof/Machine/Waveform.lean ====
section
/-! DEFINITION. Reading a line trace: replaying the drive states, start and stop conditions (spec/40_bus_conditions.md
R93), minimum durations (spec/43_timing.md R151, R154), clock pulses (spec/41_byte_transfer.md R119); and the traces of
the bus commands written out as spec/95_test_vectors.md writes them. -/

namespace Sys2Proof.Machine

/-- The engine's drive state of both lines, true = driven low: `drv(SDA)` and `drv(SCL)` of R93. -/
structure Drive where
  sda : Bool
  scl : Bool
  deriving DecidableEq, Repr

/-- The drive state of a machine (R22). -/
def State.drive (s : State) : Drive := ⟨s.sdaLow, s.sclLow⟩

/-- The drive state after an event (R12). -/
def Drive.after (d : Drive) : Event → Drive
  | .low .sda => { d with sda := true }
  | .low .scl => { d with scl := true }
  | .rel .sda => { d with sda := false }
  | .rel .scl => { d with scl := false }
  | .wait _ => d
  | .samp _ => d

/-- The drive state after a trace. -/
def replay : List Event → Drive → Drive
  | [], d => d
  | e :: es, d => replay es (d.after e)

/-- A start condition: `Low(SDA)` while both lines are released (R93). -/
def isStartCondition (d : Drive) (e : Event) : Bool := (e == .low .sda) && !d.sda && !d.scl

/-- A stop condition: `Rel(SDA)` while SDA is driven low and SCL is released (R93). -/
def isStopCondition (d : Drive) (e : Event) : Bool := (e == .rel .sda) && d.sda && !d.scl

/-- How many start conditions a trace holds, from a drive state. -/
def startConditions : List Event → Drive → Nat
  | [], _ => 0
  | e :: es, d => (if isStartCondition d e then 1 else 0) + startConditions es (d.after e)

/-- How many stop conditions a trace holds, from a drive state. -/
def stopConditions : List Event → Drive → Nat
  | [], _ => 0
  | e :: es, d => (if isStopCondition d e then 1 else 0) + stopConditions es (d.after e)

/-- Whether every sample of a trace is taken while the engine releases SDA, from a drive state (R116). -/
def samplesReleased : List Event → Drive → Bool
  | [], _ => true
  | .samp _ :: es, d => !d.sda && samplesReleased es d
  | e :: es, d => samplesReleased es (d.after e)

/-- Whether every change of SDA's drive state in a trace happens while the engine drives SCL low, from a drive state
(R114). -/
def sdaMovesWhileClockLow : List Event → Drive → Bool
  | [], _ => true
  | e :: es, d => (((d.after e).sda == d.sda) || d.scl) && sdaMovesWhileClockLow es (d.after e)

/-- The events of a trace that drive or release a line, in order. -/
def driveEvents : List Event → List Event
  | [] => []
  | .low l :: es => .low l :: driveEvents es
  | .rel l :: es => .rel l :: driveEvents es
  | .wait _ :: es => driveEvents es
  | .samp _ :: es => driveEvents es

/-- The levels a trace sampled, in order. -/
def sampledLevels : List Event → List Bool
  | [] => []
  | .samp b :: es => b :: sampledLevels es
  | .low _ :: es => sampledLevels es
  | .rel _ :: es => sampledLevels es
  | .wait _ :: es => sampledLevels es

/-- The sum of a trace's waits: the least time it can take (R154). -/
def minDuration : List Event → Nat
  | [] => 0
  | .wait t :: es => t + minDuration es
  | _ :: es => minDuration es

/-- The least high time of each complete clock pulse, in order: the waits between `Rel(SCL)` and the next `Low(SCL)`.
The option is the wait so far of a pulse that is high (R119). -/
def clockHighTimes : List Event → Option Nat → List Nat
  | [], _ => []
  | .rel .scl :: es, _ => clockHighTimes es (some 0)
  | .low .scl :: es, some h => h :: clockHighTimes es none
  | .low .scl :: es, none => clockHighTimes es none
  | .wait t :: es, some h => clockHighTimes es (some (h + t))
  | _ :: es, p => clockHighTimes es p

/-- The least low time between consecutive clock pulses, in order: the waits between `Low(SCL)` and the next
`Rel(SCL)` (R119). -/
def clockLowTimes : List Event → Option Nat → List Nat
  | [], _ => []
  | .low .scl :: es, _ => clockLowTimes es (some 0)
  | .rel .scl :: es, some h => h :: clockLowTimes es none
  | .rel .scl :: es, none => clockLowTimes es none
  | .wait t :: es, some h => clockLowTimes es (some (h + t))
  | _ :: es, p => clockLowTimes es p

/-- INIT's trace (R90). -/
def initTrace : List Event := [.rel .sda, .rel .scl]

/-- START's trace (R91). -/
def startTrace (c : Config) : List Event :=
  [.rel .sda, .wait c.tBrief, .rel .scl, .wait c.tBrief, .low .sda, .wait c.tHdSta, .low .scl, .wait c.tSettle]

/-- STOP's trace (R92). -/
def stopTrace (c : Config) : List Event :=
  [.low .scl, .wait c.tBrief, .low .sda, .wait c.tBrief, .rel .scl, .wait c.tSuSto, .rel .sda, .wait c.tSettle]

/-- `D(x)`: the six events of one WRITE data bit (spec/95_test_vectors.md). -/
def writeBitTrace (c : Config) (x : Bool) : List Event :=
  [if x then .rel .sda else .low .sda, .wait c.tSuDat, .rel .scl, .wait c.tHigh, .low .scl, .wait c.tHdDat]

/-- WRITE's trace with the acknowledge sampled at b (R111): 54 events. -/
def writeTrace (c : Config) (imm8 : Byte) (b : Bool) : List Event :=
  writeBitTrace c (imm8.getLsbD 7) ++ writeBitTrace c (imm8.getLsbD 6) ++
  writeBitTrace c (imm8.getLsbD 5) ++ writeBitTrace c (imm8.getLsbD 4) ++
  writeBitTrace c (imm8.getLsbD 3) ++ writeBitTrace c (imm8.getLsbD 2) ++
  writeBitTrace c (imm8.getLsbD 1) ++ writeBitTrace c (imm8.getLsbD 0) ++
  [.rel .sda, .rel .scl, .wait c.tSuDat, .samp b, .low .scl, .wait c.tTrail]

/-- `Q(b)`: the five events of one READ data bit (spec/95_test_vectors.md). -/
def readBitTrace (c : Config) (b : Bool) : List Event :=
  [.rel .scl, .wait c.tHigh, .samp b, .low .scl, .wait c.tHdDat]

/-- READ's trace with the data bits sampled, first sample first (R112): 48 events for eight samples. -/
def readTrace (c : Config) (a : AckPolicy) (bits : List Bool) : List Event :=
  .rel .sda :: bits.flatMap (readBitTrace c) ++
  [if a = .ack then .low .sda else .rel .sda, .wait c.tSuDat, .rel .scl, .wait c.tHigh, .low .scl, .rel .sda,
    .wait c.tTrail]

/-- The byte whose bits are given most-significant first (R54, R112). -/
def byteOfBits (bits : List Bool) : Byte := bits.foldl (fun r b => (r <<< 1) ||| (BitVec.ofBool b).zeroExtend 8) 0#8

end Sys2Proof.Machine
end

