-- ==== Sys2Proof/Safety.lean ====
section
/-! DEFINITION. What counts as a safe run: no sticky bit (spec/60_exceptions.md R208), a legal drive state between
commands (spec/40_bus_conditions.md R96), the invariant every step keeps, and the host's framing discipline
(spec/70_reset_and_hazards.md R233 to R240). -/

namespace Sys2Proof.Machine

/-- The fault record is empty: ILLCMD = ILLACC = SEQERR = 0 (R208). -/
def State.unfaulted (s : State) : Bool := !s.illcmd && !s.illacc && !s.seqerr

/-- The drive states of R96: (0, 0), (1, 1) and (0, 1), never SDA low with SCL released. -/
def Drive.legal (d : Drive) : Bool := !(d.sda && !d.scl)

/-- The invariant of a machine between steps: the drive state is one of R96; before the first INIT both lines are
released (R90, R33); and the lines stand where the trace's last events left them (R23). -/
structure State.Inv (s : State) : Prop where
  legal : s.drive.legal = true
  idleBeforeInit : s.init = false → s.drive = ⟨false, false⟩
  traced : replay s.trace ⟨false, false⟩ = s.drive

/-- Whether the next thing that happens is a reset, alone or in the middle of a command (R230, R231). -/
def State.resetNext (s : State) : Bool :=
  match s.inputs with
  | [] => false
  | .reset _ :: _ => true
  | .cutWrite _ _ _ _ _ :: _ => true
  | .read _ _ :: _ => false
  | .write _ _ _ :: _ => false
  | .foreignAccess _ :: _ => false
  | .operation _ e :: _ => match e with
    | .cutWrite _ _ _ _ _ => true
    | .enter => false
    | .read _ _ => false
    | .write _ _ _ => false
    | .leave => false

/-- Whether the next thing that happens is a 4-byte store of w to CMD, by the host or by the protocol operation in
progress (R27, R51, R213). -/
def State.storesToCmd (s : State) (w : Word) : Prop :=
  ∃ rest, s.inputs = .write s.cfg.base 4 w :: rest ∨
    ∃ id, s.operation = some id ∧ s.inputs = .operation id (.write s.cfg.base 4 w) :: rest

/-- The five error conditions, in the order of their codes (R201). -/
def allConditions : List Condition :=
  [.acknowledgeError, .checksumError, .illegalCommand, .illegalAccess, .sequenceError]

/-- s with its five condition bits set to given values. -/
def State.withFlags (a c i l q : Bool) (s : State) : State :=
  { s with ackerr := a, crcerr := c, illcmd := i, illacc := l, seqerr := q }

/-- s with the state of the bus unit set to given values: lines, INIT, ACKERR, RX (R137). -/
def State.withBusUnit (sda scl ini ack : Bool) (r : Byte) (s : State) : State :=
  { s with sdaLow := sda, sclLow := scl, init := ini, ackerr := ack, rx := r }

/-- s with the state of the CRC unit set to given values: CRC, CRCERR (R137). -/
def State.withCrcUnit (c : Byte) (e : Bool) (s : State) : State := { s with crc := c, crcerr := e }

/-- Where a command sequence stands in the framing discipline. -/
inductive Frame where
  /-- No INIT yet: bus commands are refused (R33). -/
  | beforeInit
  /-- Between transactions. -/
  | idle
  /-- Between START and STOP; the last READ, if any, used NACK. -/
  | inTransaction
  /-- Between START and STOP; the last READ since the first START used ACK (R240). -/
  | afterReadAck
  deriving DecidableEq, Repr

/-- One command in the discipline, `none` where a hazard rule forbids it: a bus command before INIT (R233), WRITE or
READ outside a transaction (R239), INIT inside one (R234), and a STOP when the last READ of the transaction used ACK
(R240). DESIGN CHOICE (log 22), where these rules do not speak: a STOP on an idle bus is allowed; a repeated START is
allowed anywhere inside a transaction, after a READ with ACK too, and does not end it, so a READ with NACK must still
follow before the STOP; DELAY and the CRC commands are allowed everywhere. -/
def Frame.next (f : Frame) (i : Instr) : Option Frame :=
  match i with
  | .init => match f with
    | .beforeInit => some .idle
    | .idle => some .idle
    | .inTransaction => none
    | .afterReadAck => none
  | .start => match f with
    | .beforeInit => none
    | .idle => some .inTransaction
    | .inTransaction => some .inTransaction
    | .afterReadAck => some .afterReadAck
  | .stop => match f with
    | .beforeInit => none
    | .idle => some .idle
    | .inTransaction => some .idle
    | .afterReadAck => none
  | .write _ => match f with
    | .beforeInit => none
    | .idle => none
    | .inTransaction => some .inTransaction
    | .afterReadAck => some .afterReadAck
  | .read a => match f with
    | .beforeInit => none
    | .idle => none
    | .inTransaction => match a with
      | .ack => some .afterReadAck
      | .nack => some .inTransaction
    | .afterReadAck => match a with
      | .ack => some .afterReadAck
      | .nack => some .inTransaction
  | .crcinit => some f
  | .crcupd _ => some f
  | .crcchk _ => some f
  | .delay _ => some f

/-- Where a command sequence ends in the discipline, `none` if it breaks it. -/
def Frame.run : Frame → List Instr → Option Frame
  | f, [] => some f
  | f, i :: is => (f.next i).bind (fun g => Frame.run g is)

/-- The machine stands where the discipline says: the INIT flag, and a clock that is low exactly inside a
transaction, with the data line released outside one. -/
def Frame.agrees (f : Frame) (s : State) : Bool :=
  match f with
  | .beforeInit => !s.init && !s.sdaLow && !s.sclLow
  | .idle => s.init && !s.sdaLow && !s.sclLow
  | .inTransaction => s.init && s.sclLow
  | .afterReadAck => s.init && s.sclLow

end Sys2Proof.Machine
end

