-- ==== Sys2Proof/Certificates/Slice0/Obligations.lean ====
section
/-! DEFINITION. The statements for the provers, from the numbered rules of spec/. `s.withInput h` is any state whose next
input is h; `s.cfg.base` is the address of CMD. -/

open Sys2Proof Sys2Proof.Machine

/-! ### Encoding -/

/-- R71 to R73: every command is well formed, and its word decodes to it, whatever its operands. -/
def Obligations.DecodeEncodeRoundTrip : Prop :=
  ∀ i : Instr, i.wellFormed = true ∧ decode (encode i) = .ok i

/-- R73, R75, "Reserved bits are never ignored": a word that decodes is the only word of its command. -/
def Obligations.DecodedWordIsTheEncoding : Prop :=
  ∀ (w : Word) (i : Instr), decode w = .ok i → encode i = w

/-- R72, R73: the opcode map, its operands taken from the word unchanged; no word selects two rows; every other OP
value is illegal. -/
def Obligations.OpcodeMap : Prop :=
  ∀ w : Word,
    (decode w = .ok .init ↔ w &&& 0xFFFFFFFF#32 = 0x01000000#32) ∧
    (decode w = .ok .start ↔ w &&& 0xFFFFFFFF#32 = 0x02000000#32) ∧
    (decode w = .ok .stop ↔ w &&& 0xFFFFFFFF#32 = 0x03000000#32) ∧
    (∀ b, decode w = .ok (.write b) ↔ w &&& 0xFFFFFF00#32 = 0x04000000#32 ∧ b = w.extractLsb' 0 8) ∧
    (∀ a, decode w = .ok (.read a) ↔
      w &&& 0xFFFFFFFE#32 = 0x05000000#32 ∧ a = (if w.getLsbD 0 then .ack else .nack)) ∧
    (decode w = .ok .crcinit ↔ w &&& 0xFFFFFFFF#32 = 0x10000000#32) ∧
    (∀ b, decode w = .ok (.crcupd b) ↔ w &&& 0xFFFFFF00#32 = 0x11000000#32 ∧ b = w.extractLsb' 0 8) ∧
    (∀ e, decode w = .ok (.crcchk e) ↔ w &&& 0xFFFFFF00#32 = 0x12000000#32 ∧ e = w.extractLsb' 0 8) ∧
    (∀ n, decode w = .ok (.delay n) ↔ w &&& 0xFFFF0000#32 = 0x20000000#32 ∧ n = w.extractLsb' 0 16) ∧
    (w.extractLsb' 24 8 ∉ [0x01#8, 0x02#8, 0x03#8, 0x04#8, 0x05#8, 0x10#8, 0x11#8, 0x12#8, 0x20#8] →
      decode w = .error .unassignedOp) ∧
    (∀ r ∈ opcodeTable, ∀ r' ∈ opcodeTable, r.selects w = true → r'.selects w = true → r = r')

/-- R75, R204: which words are illegal, (a) by their OP and (b) by a 1 in a bit the format requires to be 0, and that
writing one to CMD sets ILLCMD and does nothing else. -/
def Obligations.IllegalWordsSetOnlyIllcmd : Prop :=
  ∀ (w : Word) (s : State),
    ((∀ i, decode w ≠ .ok i) ↔
      w.extractLsb' 24 8 ∉ [0x01#8, 0x02#8, 0x03#8, 0x04#8, 0x05#8, 0x10#8, 0x11#8, 0x12#8, 0x20#8] ∨
      (w.extractLsb' 24 8 ∈ [0x01#8, 0x02#8, 0x03#8, 0x10#8] ∧ w.extractLsb' 0 24 ≠ 0#24) ∨
      (w.extractLsb' 24 8 ∈ [0x04#8, 0x11#8, 0x12#8] ∧ w.extractLsb' 8 16 ≠ 0#16) ∨
      (w.extractLsb' 24 8 = 0x05#8 ∧ w.extractLsb' 1 23 ≠ 0#23) ∨
      (w.extractLsb' 24 8 = 0x20#8 ∧ w.extractLsb' 16 8 ≠ 0#8)) ∧
    ((∀ i, decode w ≠ .ok i) →
      step (s.withInput (.write s.cfg.base 4 w)) = .next { s with illcmd := true }) ∧
    (∀ i, decode 0x00000000#32 ≠ .ok i) ∧ (∀ i, decode 0xFFFFFFFF#32 ≠ .ok i)

/-- A sanity check of the decoder on words written out from spec/95_test_vectors.md. -/
def Obligations.TestVectorWordsDecode : Prop :=
  decode 0x04000080#32 = .ok (.write 0x80#8) ∧ decode 0x05000001#32 = .ok (.read .ack) ∧
  decode 0x20002710#32 = .ok (.delay 10000#16) ∧ decode 0x120000B6#32 = .ok (.crcchk 0xB6#8) ∧
  decode 0x04000100#32 = .error .reservedBitSet ∧ decode 0x06000000#32 = .error .unassignedOp

/-! ### A step -/

/-- R21, R27, R57: a store of a decodable word to CMD runs that command, as `exec` says, and nothing else. With nothing
to do the engine is idle: such a step changes nothing (log 5). `withFetchWord` is such a store put first (log 4). -/
def Obligations.StepRunsDecodedCommand : Prop :=
  (∀ (s : State) (w : Word) (i : Instr), decode w = .ok i →
    step (s.withInput (.write s.cfg.base 4 w)) = exec i s ∧ step (s.withFetchWord 32 w.toNat) = exec i s) ∧
  (∀ s : State, s.inputs = [] → step s = .next s)

/-- R74: `Execute(w)`. No row: ILLCMD. A bus command while INIT = 0: SEQERR. Else the command, which raises neither. -/
def Obligations.ExecuteChecksThenRuns : Prop :=
  ∀ (s : State) (w : Word),
    ((∀ i, decode w ≠ .ok i) → step (s.withInput (.write s.cfg.base 4 w)) = .next { s with illcmd := true }) ∧
    (∀ i, decode w = .ok i →
      (i = .start ∨ i = .stop ∨ (∃ b, i = .write b) ∨ (∃ a, i = .read a)) → s.init = false →
      step (s.withInput (.write s.cfg.base 4 w)) = .next { s with seqerr := true }) ∧
    (∀ i, decode w = .ok i →
      (¬ (i = .start ∨ i = .stop ∨ (∃ b, i = .write b) ∨ (∃ a, i = .read a)) ∨ s.init = true) →
      ∃ t, exec i s = .next t ∧ step (s.withInput (.write s.cfg.base 4 w)) = .next t ∧
        t.illcmd = s.illcmd ∧ t.illacc = s.illacc ∧ t.seqerr = s.seqerr)

/-- R79, R200, R213: every command completes, and a step stops only by refusing a shared use of the register window:
an access of a second host agent, or two protocol operations that interleave (in the model's form of log 12). -/
def Obligations.StepsStopOnlyOnSharedUse : Prop :=
  (∀ (i : Instr) (s : State), ∃ t, exec i s = .next t) ∧
  (∀ s : State, (∃ t, step s = .next t) ∨
    (∃ a rest, s.inputs = .foreignAccess a :: rest ∧ (a - s.cfg.base).toNat < 16 ∧
      step s = .refused .secondHostAgent) ∨
    (∃ id e rest, s.inputs = .operation id e :: rest ∧
      (if e = .enter then s.operation ≠ none else s.operation ≠ some id) ∧
      step s = .refused .interleavedOperations)) ∧
  (∀ (s : State) (a : Word), (a - s.cfg.base).toNat < 16 →
    step (s.withInput (.foreignAccess a)) = .refused .secondHostAgent)

/-! ### The commands -/

/-- R90: INIT releases data, then clock, and sets INIT, in every state; from every drive state of R96 its trace holds
no start or stop condition. -/
def Obligations.InitReleasesBothLines : Prop :=
  (∀ s : State, exec .init s =
    .next { s with sdaLow := false, sclLow := false, init := true, trace := s.trace ++ [.rel .sda, .rel .scl] }) ∧
  decode 0x01000000#32 = .ok .init ∧
  (∀ d : Drive, d.legal = true →
    startConditions [.rel .sda, .rel .scl] d = 0 ∧ stopConditions [.rel .sda, .rel .scl] d = 0) ∧
  (∀ c rx crc, ∃ t, exec .init (State.afterReset c rx crc) = .next t ∧ t.status = 0x00000100#32)

/-- R91: START, its eight events and its drive state; SEQERR alone while INIT = 0. -/
def Obligations.StartResult : Prop :=
  (∀ s : State, s.init = true → exec .start s =
    .next { s with sdaLow := true, sclLow := true,
                   trace := s.trace ++ [.rel .sda, .wait s.cfg.tBrief, .rel .scl, .wait s.cfg.tBrief,
                                        .low .sda, .wait s.cfg.tHdSta, .low .scl, .wait s.cfg.tSettle] }) ∧
  (∀ s : State, s.init = false → exec .start s = .next { s with seqerr := true }) ∧
  decode 0x02000000#32 = .ok .start ∧
  (∀ c rx crc, ∃ t, runCommands [.init, .start] (State.afterReset c rx crc) = .next t ∧
    t.status = 0x00030100#32)

/-- R92: STOP, its eight events and its drive state; SEQERR alone while INIT = 0. -/
def Obligations.StopResult : Prop :=
  (∀ s : State, s.init = true → exec .stop s =
    .next { s with sdaLow := false, sclLow := false,
                   trace := s.trace ++ [.low .scl, .wait s.cfg.tBrief, .low .sda, .wait s.cfg.tBrief,
                                        .rel .scl, .wait s.cfg.tSuSto, .rel .sda, .wait s.cfg.tSettle] }) ∧
  (∀ s : State, s.init = false → exec .stop s = .next { s with seqerr := true }) ∧
  decode 0x03000000#32 = .ok .stop ∧
  (∀ c rx crc, ∃ t, runCommands [.init, .start, .write 0x80#8, .stop]
      { State.afterReset c rx crc with busIn := [false] } = .next t ∧ t.status = 0x00000100#32)

/-- R111: WRITE sends the eight bits, most-significant first, and its one sample becomes ACKERR; the trace has 54
events; SEQERR alone while INIT = 0. The sample is the next draw (R116), whatever it is; how draws are kept, in `busIn`
and `sampleCount`, is the model's choice (log 3). -/
def Obligations.WriteResult : Prop :=
  (∀ (s : State) (b : Byte), s.init = true → exec (.write b) s =
    .next { s with sdaLow := false, sclLow := true, ackerr := s.nextDraw, busIn := s.busIn.tail,
                   sampleCount := s.sampleCount + 1, trace := s.trace ++ writeTrace s.cfg b s.nextDraw }) ∧
  (∀ (s : State) (b : Byte), s.init = false → exec (.write b) s = .next { s with seqerr := true }) ∧
  (∀ w : Word, w &&& 0xFFFFFF00#32 = 0x04000000#32 → decode w = .ok (.write (w.extractLsb' 0 8))) ∧
  (∀ (c : Config) (b : Byte) (x : Bool), (writeTrace c b x).length = 54)

/-- R112: READ assembles eight samples, the first in bit 7, into RX and sends the acknowledge its operand selects; the
trace has 48 events; an undriven line reads 0xFF; SEQERR alone while INIT = 0. The samples are the next draws (R116),
whatever they are; how draws are kept is the model's choice (log 3). -/
def Obligations.ReadResult : Prop :=
  (∀ (s : State) (a : AckPolicy), s.init = true → ∃ r : Byte,
    (∀ k, k < 8 → (State.draws 8 s)[k]? = some (r.getLsbD (7 - k))) ∧
    exec (.read a) s =
      .next { s with sdaLow := false, sclLow := true, rx := r, busIn := s.busIn.drop 8,
                     sampleCount := s.sampleCount + 8,
                     trace := s.trace ++ readTrace s.cfg a (State.draws 8 s) } ∧
    (State.draws 8 s = List.replicate 8 true → r = 0xFF#8)) ∧
  (∀ (s : State) (a : AckPolicy), s.init = false → exec (.read a) s = .next { s with seqerr := true }) ∧
  (∀ w : Word, w &&& 0xFFFFFFFE#32 = 0x05000000#32 →
    decode w = .ok (.read (if w.getLsbD 0 then .ack else .nack))) ∧
  (∀ (c : Config) (a : AckPolicy) (bits : List Bool), bits.length = 8 → (readTrace c a bits).length = 48)

/-- R131, R132, R133: the CRC commands in every state, and their examples. -/
def Obligations.CrcCommandResults : Prop :=
  (∀ s : State, exec .crcinit s = .next { s with crc := 0x00#8 }) ∧
  (∀ (s : State) (b : Byte), exec (.crcupd b) s = .next { s with crc := crcStep s.crc b }) ∧
  (∀ (s : State) (e : Byte), exec (.crcchk e) s = .next { s with crcerr := decide (s.crc ≠ e) }) ∧
  (∀ b : Byte, crcStep b b = 0x00#8) ∧ crcStep 0x00#8 0x00#8 = 0x00#8 ∧
  crcStep 0x00#8 0xBE#8 = 0xA0#8 ∧ crcStep 0xA0#8 0xEF#8 = 0x13#8 ∧
  decode 0x10000000#32 = .ok .crcinit ∧
  (∀ w : Word, w &&& 0xFFFFFF00#32 = 0x11000000#32 → decode w = .ok (.crcupd (w.extractLsb' 0 8))) ∧
  (∀ w : Word, w &&& 0xFFFFFF00#32 = 0x12000000#32 → decode w = .ok (.crcchk (w.extractLsb' 0 8)))

/-- R153: DELAY records its one wait and changes nothing else, in every state. -/
def Obligations.DelayResult : Prop :=
  (∀ (s : State) (n : BitVec 16), exec (.delay n) s = .next { s with trace := s.trace ++ [.wait n.toNat] }) ∧
  (∀ w : Word, w &&& 0xFFFF0000#32 = 0x20000000#32 → decode w = .ok (.delay (w.extractLsb' 0 16)))

/-- R33: SEQERR is set, and nothing else done, by START, STOP, WRITE and READ while INIT = 0; no other command sets it;
a step sets it only by a store of such a command's word to CMD while INIT = 0 (stores of a protocol operation in the
model's form of log 12); only reset clears it. -/
def Obligations.SequenceErrorRule : Prop :=
  (∀ (s : State) (i : Instr), s.init = false →
    (i = .start ∨ i = .stop ∨ (∃ b, i = .write b) ∨ (∃ a, i = .read a)) →
    exec i s = .next { s with seqerr := true }) ∧
  (∀ (s : State) (i : Instr),
    (i = .init ∨ i = .crcinit ∨ (∃ b, i = .crcupd b) ∨ (∃ e, i = .crcchk e) ∨ (∃ n, i = .delay n)) →
    ∃ t, exec i s = .next t ∧ t.seqerr = s.seqerr) ∧
  (∀ s t : State, step s = .next t → s.resetNext = false → s.seqerr = true → t.seqerr = true) ∧
  (∀ s t : State, step s = .next t → s.seqerr = false → t.seqerr = true → s.init = false ∧
    ∃ i, s.storesToCmd (encode i) ∧ (i = .start ∨ i = .stop ∨ (∃ b, i = .write b) ∨ (∃ a, i = .read a))) ∧
  (∀ (s : State) (d : ResetDraw), ∃ t, step (s.withInput (.reset d)) = .next t ∧ t.seqerr = false)

/-- R39: the table of every state element's writers, for every command in every state, with all the rest unchanged;
and the row of an illegal word. What WRITE and READ sample is the next draws, kept as the model chose (log 3). -/
def Obligations.StateWritersTable : Prop :=
  (∀ (i : Instr) (s : State), (isBusCommand i = true → s.init = true) → ∃ t, exec i s = .next t ∧
    t.sdaLow = (match i with
      | .init => false | .start => true | .stop => false | .write _ => false | .read _ => false
      | .crcinit => s.sdaLow | .crcupd _ => s.sdaLow | .crcchk _ => s.sdaLow | .delay _ => s.sdaLow) ∧
    t.sclLow = (match i with
      | .init => false | .start => true | .stop => false | .write _ => true | .read _ => true
      | .crcinit => s.sclLow | .crcupd _ => s.sclLow | .crcchk _ => s.sclLow | .delay _ => s.sclLow) ∧
    t.init = (if i = .init then true else s.init) ∧
    t.ackerr = (match i with
      | .write _ => s.nextDraw
      | .init => s.ackerr | .start => s.ackerr | .stop => s.ackerr | .read _ => s.ackerr
      | .crcinit => s.ackerr | .crcupd _ => s.ackerr | .crcchk _ => s.ackerr | .delay _ => s.ackerr) ∧
    t.crcerr = (match i with
      | .crcchk e => s.crc != e
      | .init => s.crcerr | .start => s.crcerr | .stop => s.crcerr | .write _ => s.crcerr | .read _ => s.crcerr
      | .crcinit => s.crcerr | .crcupd _ => s.crcerr | .delay _ => s.crcerr) ∧
    t.rx = (match i with
      | .read _ => byteOfBits (State.draws 8 s)
      | .init => s.rx | .start => s.rx | .stop => s.rx | .write _ => s.rx
      | .crcinit => s.rx | .crcupd _ => s.rx | .crcchk _ => s.rx | .delay _ => s.rx) ∧
    t.crc = (match i with
      | .crcinit => 0x00#8 | .crcupd b => crcStep s.crc b
      | .init => s.crc | .start => s.crc | .stop => s.crc | .write _ => s.crc | .read _ => s.crc
      | .crcchk _ => s.crc | .delay _ => s.crc) ∧
    t.illcmd = s.illcmd ∧ t.illacc = s.illacc ∧ t.seqerr = s.seqerr ∧
    t.cfg = s.cfg ∧ t.inputs = s.inputs ∧ t.readLog = s.readLog ∧ t.operation = s.operation ∧
    s.trace <+: t.trace) ∧
  (∀ (i : Instr) (s : State), isBusCommand i = true → s.init = false →
    exec i s = .next { s with seqerr := true }) ∧
  (∀ (w : Word) (s : State), (∀ i, decode w ≠ .ok i) → execute w s = .next { s with illcmd := true })

/-- R39, "no command's behaviour depends on ACKERR, CRCERR, ILLCMD, ILLACC or SEQERR": two runs that differ only in the
flags agree on everything but the flags, and on every flag the command writes. -/
def Obligations.FlagsDoNotSteerCommands : Prop :=
  ∀ (i : Instr) (s : State) (a c il la q : Bool), ∃ t u,
    exec i s = .next t ∧ exec i (s.withFlags a c il la q) = .next u ∧
    u.withFlags t.ackerr t.crcerr t.illcmd t.illacc t.seqerr = t ∧
    (∀ b, i = .write b → s.init = true → u.ackerr = t.ackerr) ∧
    (∀ e, i = .crcchk e → u.crcerr = t.crcerr)

/-! ### Registers -/

/-- R28, R35: every bit of STATUS; all the rest are reserved and read 0. -/
def Obligations.StatusLayout : Prop :=
  ∀ (s : State) (k : Nat), s.status.getLsbD k =
    (if k = 0 then s.ackerr else if k = 1 then s.crcerr else if k = 2 then s.illcmd else if k = 3 then s.illacc
     else if k = 4 then s.seqerr else if k = 8 then s.init else if k = 16 then s.sdaLow
     else if k = 17 then s.sclLow else false)

/-- R27, R37, R38, R51, R56: the four legal reads, their values, and that they change nothing. The read log is the
model's own record of what the host received (log 7). -/
def Obligations.LegalReadsReturnRegisters : Prop :=
  ∀ s : State,
    step (s.withInput (.read (s.cfg.base + 0x00#32) 4)) = .next { s with readLog := s.readLog ++ [0x00000000#32] } ∧
    step (s.withInput (.read (s.cfg.base + 0x04#32) 4)) = .next { s with readLog := s.readLog ++ [s.status] } ∧
    step (s.withInput (.read (s.cfg.base + 0x08#32) 4)) = .next { s with readLog := s.readLog ++ [0#24 ++ s.rx] } ∧
    step (s.withInput (.read (s.cfg.base + 0x0C#32) 4)) = .next { s with readLog := s.readLog ++ [0#24 ++ s.crc] }

/-- R36: a host write of any value to STATUS, RXDATA or CRCVAL changes none of their fields and sets ILLACC; reserved
STATUS bits always read 0. -/
def Obligations.ReadOnlyRegistersRejectWrites : Prop :=
  (∀ (s : State) (v : Word) (off : Word), off ∈ [0x04#32, 0x08#32, 0x0C#32] →
    step (s.withInput (.write (s.cfg.base + off) 4 v)) = .next { s with illacc := true }) ∧
  (∀ (s : State) (k : Nat), k ∉ [0, 1, 2, 3, 4, 8, 16, 17] → s.status.getLsbD k = false)

/-- R52: a narrow or misaligned access in the window sets ILLACC and does nothing else; a read of it returns 0. That
every width but 4 counts is the model's reading (log 9), and so is the place of an access that runs past the window's
end, by its first byte (log 8); the read log is its own (log 7). -/
def Obligations.IllegalAccessesSetIllacc : Prop :=
  ∀ (s : State) (addr : Word) (n : Nat) (v : Word),
    (addr - s.cfg.base).toNat < 16 → (n ≠ 4 ∨ (addr - s.cfg.base).toNat % 4 ≠ 0) →
    step (s.withInput (.write addr n v)) = .next { s with illacc := true } ∧
    step (s.withInput (.read addr n)) =
      .next { s with illacc := true, readLog := s.readLog ++ [0x00000000#32] }

/-- R50 (log 8): an access outside the 16 bytes from BASE does not reach the block. -/
def Obligations.OutsideTheWindowNothingHappens : Prop :=
  ∀ (s : State) (addr : Word) (n : Nat) (v : Word), 16 ≤ (addr - s.cfg.base).toNat →
    step (s.withInput (.write addr n v)) = .next s ∧ step (s.withInput (.read addr n)) = .next s ∧
    step (s.withInput (.foreignAccess addr)) = .next s

/-- R58, R242: a read right after a CMD write sees everything that command did (in the read log, log 7). -/
def Obligations.ReadAfterCommandSeesItsResult : Prop :=
  ∀ (s : State) (i : Instr), ∃ u, exec i s = .next u ∧
    ∀ off v, (off, v) ∈ [(0x04#32, u.status), (0x08#32, u.rxdata), (0x0C#32, u.crcval)] →
      ∃ s1, step ((s.withInput (.read (s.cfg.base + off) 4)).withInput (.write s.cfg.base 4 (encode i))) = .next s1 ∧
        step s1 = .next { u with readLog := s.readLog ++ [v] }

/-! ### Flags over a run -/

/-- R31, R32, R36, R52: ILLCMD is set by an illegal word, ILLACC by an illegal access, and only reset clears either.
That every width but 4 is illegal is the model's reading (log 9), and so is the place of an access that runs past the
window's end, by its first byte (log 8). -/
def Obligations.StickyBitsOnlyResetClears : Prop :=
  (∀ (s : State) (w : Word), (∀ i, decode w ≠ .ok i) →
    ∃ t, step (s.withInput (.write s.cfg.base 4 w)) = .next t ∧ t.illcmd = true) ∧
  (∀ (s : State) (addr : Word) (n : Nat) (v : Word), (addr - s.cfg.base).toNat < 16 →
    (n ≠ 4 ∨ (addr - s.cfg.base).toNat % 4 ≠ 0) →
    ∃ t u, step (s.withInput (.write addr n v)) = .next t ∧ t.illacc = true ∧
      step (s.withInput (.read addr n)) = .next u ∧ u.illacc = true) ∧
  (∀ (s : State) (v off : Word), off ∈ [0x04#32, 0x08#32, 0x0C#32] →
    ∃ t, step (s.withInput (.write (s.cfg.base + off) 4 v)) = .next t ∧ t.illacc = true) ∧
  (∀ s t : State, step s = .next t → s.resetNext = false →
    (s.illcmd = true → t.illcmd = true) ∧ (s.illacc = true → t.illacc = true)) ∧
  (∀ (s : State) (d : ResetDraw), ∃ t, step (s.withInput (.reset d)) = .next t ∧
    t.illcmd = false ∧ t.illacc = false)

/-- R34, R27: INIT is set by the INIT command, a store of its word to CMD, and by nothing else, and only reset clears
it (stores of a protocol operation in the model's form of log 12). -/
def Obligations.InitFlagRule : Prop :=
  (∀ s : State, ∃ t, exec .init s = .next t ∧ t.init = true) ∧
  (∀ s t : State, step s = .next t → s.resetNext = false → s.init = true → t.init = true) ∧
  (∀ s t : State, step s = .next t → s.init = false → t.init = true → s.storesToCmd 0x01000000#32) ∧
  (∀ (s : State) (d : ResetDraw), ∃ t, step (s.withInput (.reset d)) = .next t ∧ t.init = false)

/-- R29, R30, R37, R38, who writes: in any step that is no reset, ACKERR changes only by a store of a WRITE word to
CMD, CRCERR only of a CRCCHK word, RX only of a READ word, CRC only of a CRCINIT or CRCUPD word; and a WRITE's and a
CRCCHK's value replace the old. The WRITE's sample is the next draw, kept as the model chose (log 3); stores of a
protocol operation are in the model's form of log 12. -/
def Obligations.ResultsHaveOneWriter : Prop :=
  (∀ s t : State, step s = .next t → s.resetNext = false →
    (t.ackerr ≠ s.ackerr → ∃ b, s.storesToCmd (encode (.write b))) ∧
    (t.crcerr ≠ s.crcerr → ∃ e, s.storesToCmd (encode (.crcchk e))) ∧
    (t.rx ≠ s.rx → ∃ a, s.storesToCmd (encode (.read a))) ∧
    (t.crc ≠ s.crc → s.storesToCmd (encode .crcinit) ∨ ∃ b, s.storesToCmd (encode (.crcupd b)))) ∧
  (∀ (s : State) (b : Byte), s.init = true → ∃ t, exec (.write b) s = .next t ∧ t.ackerr = s.nextDraw) ∧
  (∀ (s : State) (e : Byte), ∃ t, exec (.crcchk e) s = .next t ∧ t.crcerr = decide (s.crc ≠ e))

/-- R207: one command word newly sets at most one of the five condition bits, and an illegal word is never also a
sequence error. -/
def Obligations.OneConditionPerCommandWord : Prop :=
  ∀ (s : State) (w : Word), ∃ t, step (s.withInput (.write s.cfg.base 4 w)) = .next t ∧
    (allConditions.filter (fun c => t.condition c && !s.condition c)).length ≤ 1 ∧
    ((∀ i, decode w ≠ .ok i) → t.seqerr = s.seqerr)

/-- R201: recording a condition sets the STATUS bit of its code and no other bit, and changes nothing else. -/
def Obligations.RaiseSetsTheBitOfItsCode : Prop :=
  ∀ (c : Condition) (s : State),
    (raiseCondition c s).status = s.status ||| (1#32 <<< c.code) ∧
    (raiseCondition c s).withFlags s.ackerr s.crcerr s.illcmd s.illacc s.seqerr = s

/-! ### Reset -/

/-- R40, R230: reset gives every element the value R40 states, RX and CRC any value the draw has; `State.reset` has
those values too (its RX and CRC are the model's choice, log 1, and stand in no clause). -/
def Obligations.ResetValues : Prop :=
  (∀ (s : State) (d : ResetDraw), ∃ t, step (s.withInput (.reset d)) = .next t ∧
    t.sdaLow = false ∧ t.sclLow = false ∧ t.init = false ∧ t.ackerr = false ∧ t.crcerr = false ∧
    t.illcmd = false ∧ t.illacc = false ∧ t.seqerr = false ∧ t.rx = d.rx ∧ t.crc = d.crc) ∧
  State.reset.sdaLow = false ∧ State.reset.sclLow = false ∧ State.reset.init = false ∧
  State.reset.ackerr = false ∧ State.reset.crcerr = false ∧ State.reset.illcmd = false ∧
  State.reset.illacc = false ∧ State.reset.seqerr = false ∧ State.reset.status = 0x00000000#32

/-- R231 (logs 10, 11): a reset during a command performs the command's events up to some point and none after it, then
releases both lines in the drawn order; every element has its reset value. -/
def Obligations.ResetDuringACommandCutsItsTrace : Prop :=
  ∀ (s : State) (w : Word) (i : Instr) (k : Nat) (d : ResetDraw), decode w = .ok i →
    (isBusCommand i = true → s.init = true) →
    ∃ t u pre full, step (s.withInput (.cutWrite s.cfg.base 4 w k d)) = .next t ∧
      exec i s = .next u ∧ u.trace = s.trace ++ full ∧ pre <+: full ∧ (k = 0 → pre = []) ∧
      (full.length + 2 ≤ k → pre = full) ∧
      t.trace = s.trace ++ pre ++ (if d.sclFirst then [.rel .scl, .rel .sda] else [.rel .sda, .rel .scl]) ∧
      t.drive = ⟨false, false⟩ ∧ t.status = 0x00000000#32 ∧ t.rx = d.rx ∧ t.crc = d.crc ∧
      t.cfg = s.cfg ∧ t.inputs = s.inputs ∧ t.readLog = s.readLog ∧ t.operation = s.operation

/-! ### Invariants -/

/-- R40, R96: the invariant (its clause on the trace rests on log 6) holds after reset, whatever the parameters and the draws. -/
def Obligations.InvariantHoldsAtReset : Prop :=
  State.reset.Inv ∧ ∀ (c : Config) (rx crc : Byte), (State.afterReset c rx crc).Inv

/-- R23, R33, R96: every step keeps the invariant. The drive state is one of R96's; both lines are released until INIT
has executed; and the lines stand where the line trace, which starts empty and is never cleared (log 6), left them. -/
def Obligations.EveryStepKeepsTheInvariant : Prop :=
  ∀ s t : State, s.Inv → step s = .next t → t.Inv

/-- R96: the drive states between commands, what each command leaves, and INIT's conditions. -/
def Obligations.DriveStatesBetweenCommands : Prop :=
  (∀ s t : State, s.drive.legal = true → step s = .next t → t.drive.legal = true) ∧
  (∀ d : Drive, d.legal = true ↔ d = ⟨false, false⟩ ∨ d = ⟨true, true⟩ ∨ d = ⟨false, true⟩) ∧
  (∀ s : State, ∃ t, exec .init s = .next t ∧ t.drive = ⟨false, false⟩) ∧
  (∀ s : State, s.init = true → ∃ t, exec .stop s = .next t ∧ t.drive = ⟨false, false⟩) ∧
  (∀ s : State, s.init = true → ∃ t, exec .start s = .next t ∧ t.drive = ⟨true, true⟩) ∧
  (∀ (s : State) (b : Byte), s.init = true → ∃ t, exec (.write b) s = .next t ∧ t.drive = ⟨false, true⟩) ∧
  (∀ (s : State) (a : AckPolicy), s.init = true → ∃ t, exec (.read a) s = .next t ∧ t.drive = ⟨false, true⟩) ∧
  (∀ (s : State) (d : ResetDraw), ∃ t, step (s.withInput (.reset d)) = .next t ∧ t.drive = ⟨false, false⟩) ∧
  (∀ s : State, ∃ t es, exec .init s = .next t ∧ t.trace = s.trace ++ es ∧ startConditions es s.drive = 0 ∧
    stopConditions es s.drive = (if s.drive = ⟨true, false⟩ then 1 else 0))

/-- R9, R12, R62: a step never changes the parameters, and never rewrites what has happened: the trace and the read log
are the model's cumulative records (logs 6, 7). -/
def Obligations.StepsExtendTheHistory : Prop :=
  ∀ s t : State, step s = .next t → t.cfg = s.cfg ∧ s.trace <+: t.trace ∧ s.readLog <+: t.readLog

/-- R62: the actions of successive commands appear in the order the host wrote them, with nothing between. -/
def Obligations.CommandsActInTheOrderWritten : Prop :=
  ∀ (is js : List Instr) (s : State), ∃ u t es fs,
    runCommands is s = .next u ∧ runCommands js u = .next t ∧ runCommands (is ++ js) s = .next t ∧
    u.trace = s.trace ++ es ∧ t.trace = s.trace ++ es ++ fs

/-! ### Waveforms -/

/-- R94: from every drive state of R96 a START makes exactly one start condition and no stop condition; its drive
events are `Rel(SDA)`, `Rel(SCL)`, `Low(SDA)`, `Low(SCL)`, of which only the third can be the start condition. -/
def Obligations.StartMakesOneStartCondition : Prop :=
  ∀ s : State, s.init = true → s.drive.legal = true → ∃ t es, exec .start s = .next t ∧ t.trace = s.trace ++ es ∧
    startConditions es s.drive = 1 ∧ stopConditions es s.drive = 0 ∧
    driveEvents es = [.rel .sda, .rel .scl, .low .sda, .low .scl]

/-- R95: from every drive state a STOP makes exactly one stop condition and no start condition; its drive events are
`Low(SCL)`, `Low(SDA)`, `Rel(SCL)`, `Rel(SDA)`, and the stop condition is the last of them. -/
def Obligations.StopMakesOneStopCondition : Prop :=
  ∀ s : State, s.init = true → ∃ t es pre, exec .stop s = .next t ∧ t.trace = s.trace ++ es ∧
    startConditions es s.drive = 0 ∧ stopConditions es s.drive = 1 ∧
    driveEvents es = [.low .scl, .low .sda, .rel .scl, .rel .sda] ∧
    es = pre ++ [.rel .sda, .wait s.cfg.tSettle] ∧ stopConditions pre s.drive = 0

/-- R114: from a drive state with SCL low, WRITE and READ change SDA only while SCL is driven low, and make no start or
stop condition. -/
def Obligations.TransfersMakeNoCondition : Prop :=
  ∀ (s : State) (i : Instr), s.init = true → s.sclLow = true → ((∃ b, i = .write b) ∨ (∃ a, i = .read a)) →
    ∃ t es, exec i s = .next t ∧ t.trace = s.trace ++ es ∧ sdaMovesWhileClockLow es s.drive = true ∧
      startConditions es s.drive = 0 ∧ stopConditions es s.drive = 0

/-- R118: on an idle bus a WRITE makes exactly one start condition when its bit 7 is 0 and none when it is 1; a READ
makes none. -/
def Obligations.TransfersOnAnIdleBus : Prop :=
  ∀ s : State, s.init = true → s.drive = ⟨false, false⟩ →
    (∀ b : Byte, ∃ t es, exec (.write b) s = .next t ∧ t.trace = s.trace ++ es ∧
      startConditions es s.drive = (if b.getLsbD 7 then 0 else 1) ∧ stopConditions es s.drive = 0) ∧
    (∀ a : AckPolicy, ∃ t es, exec (.read a) s = .next t ∧ t.trace = s.trace ++ es ∧
      startConditions es s.drive = 0 ∧ stopConditions es s.drive = 0)

/-- R25, R116: a sample while the engine drives SDA low is 0, else a draw; in WRITE and READ, from any drive state,
every sample is taken with SDA released, and the samples are the next draws in order. -/
def Obligations.EverySampleIsADraw : Prop :=
  (∀ s : State, (sampleSda s).1 = (if s.sdaLow then false else s.nextDraw)) ∧
  (∀ e d : Bool, lineLevel e d = false ↔ e = true ∨ d = true) ∧
  (∀ (s : State) (b : Byte), s.init = true → ∃ t es, exec (.write b) s = .next t ∧ t.trace = s.trace ++ es ∧
    samplesReleased es s.drive = true ∧ sampledLevels es = State.draws 1 s) ∧
  (∀ (s : State) (a : AckPolicy), s.init = true → ∃ t es, exec (.read a) s = .next t ∧ t.trace = s.trace ++ es ∧
    samplesReleased es s.drive = true ∧ sampledLevels es = State.draws 8 s)

/-- R119, as the action lists of R111 and R112 give it (log 19: between READ's data bits R112 has no data setup delay):
the least high time of each clock pulse, and the least low time between pulses. -/
def Obligations.ClockPulseTimes : Prop :=
  (∀ (s : State) (b : Byte), s.init = true → ∃ t es, exec (.write b) s = .next t ∧ t.trace = s.trace ++ es ∧
    clockHighTimes es none = List.replicate 8 s.cfg.tHigh ++ [s.cfg.tSuDat] ∧
    clockLowTimes es none = List.replicate 7 (s.cfg.tHdDat + s.cfg.tSuDat) ++ [s.cfg.tHdDat]) ∧
  (∀ (s : State) (a : AckPolicy), s.init = true → ∃ t es, exec (.read a) s = .next t ∧ t.trace = s.trace ++ es ∧
    clockHighTimes es none = List.replicate 9 s.cfg.tHigh ∧
    clockLowTimes es none = List.replicate 7 s.cfg.tHdDat ++ [s.cfg.tHdDat + s.cfg.tSuDat])

/-- R154: the minimum duration of each command is the sum of its waits, as the table gives it, with the reference
values too. -/
def Obligations.MinimumDurations : Prop :=
  (∀ (i : Instr) (s : State), (isBusCommand i = true → s.init = true) → ∃ t es,
    exec i s = .next t ∧ t.trace = s.trace ++ es ∧
    minDuration es = (match i with
      | .init => 0
      | .start => 2 * s.cfg.tBrief + s.cfg.tHdSta + s.cfg.tSettle
      | .stop => 2 * s.cfg.tBrief + s.cfg.tSuSto + s.cfg.tSettle
      | .write _ => 8 * (s.cfg.tSuDat + s.cfg.tHigh + s.cfg.tHdDat) + s.cfg.tSuDat + s.cfg.tTrail
      | .read _ => 8 * (s.cfg.tHigh + s.cfg.tHdDat) + s.cfg.tSuDat + s.cfg.tHigh + s.cfg.tTrail
      | .crcinit => 0
      | .crcupd _ => 0
      | .crcchk _ => 0
      | .delay n => n.toNat)) ∧
  (∀ (i : Instr) (s : State), isBusCommand i = true → s.init = false →
    ∃ t, exec i s = .next t ∧ t.trace = s.trace) ∧
  (∀ (w : Word) (s : State), (∀ i, decode w ≠ .ok i) → ∃ t, execute w s = .next t ∧ t.trace = s.trace) ∧
  (∀ s : State, s.init = true →
    s.cfg.tBrief = 1 → s.cfg.tHdSta = 10 → s.cfg.tSuSto = 10 → s.cfg.tSettle = 10 → s.cfg.tSuDat = 1 →
    s.cfg.tHigh = 5 → s.cfg.tHdDat = 1 → s.cfg.tTrail = 20 →
    (∃ t es, exec .start s = .next t ∧ t.trace = s.trace ++ es ∧ minDuration es = 22) ∧
    (∃ t es, exec .stop s = .next t ∧ t.trace = s.trace ++ es ∧ minDuration es = 22) ∧
    (∀ b, ∃ t es, exec (.write b) s = .next t ∧ t.trace = s.trace ++ es ∧ minDuration es = 77) ∧
    (∀ a, ∃ t es, exec (.read a) s = .next t ∧ t.trace = s.trace ++ es ∧ minDuration es = 74))

/-! ### The CRC unit -/

/-- R130: the eight conditional shifts are the division of (c XOR b)·x⁸ by x⁸ + x⁵ + x⁴ + 1 over GF(2). -/
def Obligations.CrcStepIsPolynomialRemainder : Prop :=
  ∀ c b : Byte, crcStep c b = polyRemainder (c ^^^ b)

/-- R130, "All arithmetic is in GF(2)": the step is additive. -/
def Obligations.CrcStepIsAdditive : Prop :=
  ∀ c c' b b' : Byte, crcStep (c ^^^ c') (b ^^^ b') = crcStep c b ^^^ crcStep c' b'

/-- R134: CRCINIT, the data bytes by CRCUPD, then CRCCHK, leaves the CRC of the bytes and the verdict of the source's
`CheckCrc`, for every length, and touches nothing else. -/
def Obligations.CheckCrcSequence : Prop :=
  (∀ (ds : List Byte) (e : Byte) (s : State),
    runCommands (.crcinit :: ds.map .crcupd ++ [.crcchk e]) s =
      .next { s with crc := ds.foldl crcStep 0x00#8, crcerr := decide (ds.foldl crcStep 0x00#8 ≠ e) }) ∧
  (∀ (e : Byte) (s : State), runCommands [.crcinit, .crcchk e] s =
    .next { s with crc := 0x00#8, crcerr := decide (0x00#8 ≠ e) })

/-- R135: a sequence followed by its own checksum leaves 0x00, and checking it so gives the same verdict. -/
def Obligations.ChecksumLeavesZeroResidue : Prop :=
  (∀ ds : List Byte, (ds ++ [ds.foldl crcStep 0x00#8]).foldl crcStep 0x00#8 = 0x00#8) ∧
  (∀ (d0 d1 c : Byte) (s : State), ∃ t u,
    runCommands [.crcinit, .crcupd d0, .crcupd d1, .crcupd c, .crcchk 0x00#8] s = .next t ∧
    runCommands [.crcinit, .crcupd d0, .crcupd d1, .crcchk c] s = .next u ∧ t.crcerr = u.crcerr)

/-- R136: flipping any one of the sixteen bits of two data bytes, the checksum held, always gives CRCERR = 1. -/
def Obligations.SingleBitErrorsAreDetected : Prop :=
  ∀ (d0 d1 d0' d1' : Byte) (k : Nat) (s : State), k < 16 → d0' ++ d1' = (d0 ++ d1) ^^^ (1#16 <<< k) →
    ∃ t, runCommands [.crcinit, .crcupd d0', .crcupd d1', .crcchk (crcStep (crcStep 0x00#8 d0) d1)] s = .next t ∧
      t.crcerr = true

/-- R137: the CRC commands neither read nor write the bus unit, and no bus command reads or writes the CRC unit. -/
def Obligations.UnitsAreIndependent : Prop :=
  (∀ (i : Instr) (s : State) (sda scl ini ack : Bool) (r : Byte),
    (i = .crcinit ∨ (∃ b, i = .crcupd b) ∨ (∃ e, i = .crcchk e)) → ∃ t,
      exec i s = .next t ∧
      exec i (s.withBusUnit sda scl ini ack r) = .next (t.withBusUnit sda scl ini ack r) ∧
      t = s.withCrcUnit t.crc t.crcerr) ∧
  (∀ (i : Instr) (s : State) (c : Byte) (e : Bool), ((∃ b, i = .write b) ∨ (∃ a, i = .read a)) → ∃ t,
      exec i s = .next t ∧ t.crc = s.crc ∧ t.crcerr = s.crcerr ∧
      exec i (s.withCrcUnit c e) = .next (t.withCrcUnit c e))

/-! ### Command sequences -/

/-- R233, R234, R239, R240 with R94, R95, R114: a sequence that keeps the framing discipline (as the model reads these
rules, log 22), from a state that agrees
with it, completes, sets no sticky bit, ends where the discipline says, and puts on the bus exactly one start condition
for each START and one stop condition for each STOP. -/
def Obligations.FramedSequencesFrameTheBus : Prop :=
  ∀ (is : List Instr) (f g : Frame) (s : State), f.run is = some g → f.agrees s = true → s.drive.legal = true →
    ∃ t es, runCommands is s = .next t ∧ g.agrees t = true ∧ t.drive.legal = true ∧
      t.illcmd = s.illcmd ∧ t.illacc = s.illacc ∧ t.seqerr = s.seqerr ∧ t.trace = s.trace ++ es ∧
      startConditions es s.drive = is.countP (fun i => i == .start) ∧
      stopConditions es s.drive = is.countP (fun i => i == .stop)

/-- R235: from any drive state, START then STOP leaves the lines released and everything else as it was. -/
def Obligations.StartThenStopRecovers : Prop :=
  ∀ s : State, s.init = true → ∃ t, runCommands [.start, .stop] s = .next t ∧
    t = { s with sdaLow := false, sclLow := false, trace := t.trace }

/-- R76: the words of the assembler's lines, and that an operand out of range is an error. -/
def Obligations.AssemblerWords : Prop :=
  assemble .init = some [0x01000000#32] ∧ assemble .start = some [0x02000000#32] ∧
  assemble .stop = some [0x03000000#32] ∧ assemble .crcinit = some [0x10000000#32] ∧
  assemble (.read .ack) = some [0x05000001#32] ∧ assemble (.read .nack) = some [0x05000000#32] ∧
  (∀ b, b ≤ 255 → assemble (.write b) = some [0x04000000#32 ||| BitVec.ofNat 32 b] ∧
    assemble (.crcupd b) = some [0x11000000#32 ||| BitVec.ofNat 32 b] ∧
    assemble (.crcchk b) = some [0x12000000#32 ||| BitVec.ofNat 32 b]) ∧
  (∀ n, n ≤ 65535 → assemble (.delay n) = some [0x20000000#32 ||| BitVec.ofNat 32 n]) ∧
  (∀ b, 255 < b → assemble (.write b) = none ∧ assemble (.crcupd b) = none ∧ assemble (.crcchk b) = none) ∧
  (∀ n, 65535 < n → assemble (.delay n) = none)

/-- R77, `DELAYL n`: only DELAY commands, of 65535 but for the last, and together they wait n microseconds and do
nothing else. -/
def Obligations.LongDelayWaitsItsSum : Prop :=
  ∀ (n : Nat) (s : State), ∃ t es, runCommands (delaylExpansion n) s = .next t ∧
    t = { s with trace := s.trace ++ es } ∧ minDuration es = n ∧
    (∀ e ∈ es, ∃ k ≤ 65535, e = .wait k) ∧ (∀ e ∈ es.dropLast, e = .wait 65535) ∧ es ≠ []

/-! ### The host protocol -/

/-- R172, R176: `WriteCommand` sends START, the address byte 0x80, the two command bytes high first, and STOP, whatever
the acknowledges; its error is their OR; the cache becomes the command exactly when all three were acknowledged. RX,
CRC, CRCERR, INIT, ILLCMD, ILLACC and SEQERR stay. Draws as in log 3; the protocol stands outside the block (log 16). -/
def Obligations.WriteCommandTransaction : Prop :=
  ∀ (cmd : BitVec 16) (ses : Session), ses.machine.init = true →
    ∃ (a0 a1 a2 : Bool) (t : State), State.draws 3 ses.machine = [a0, a1, a2] ∧
      writeCommand cmd ses =
        .next (if a0 || a1 || a2 then 1#2 else 0#2, ⟨t, if a0 || a1 || a2 then ses.cache else some cmd⟩) ∧
      t.drive = ⟨false, false⟩ ∧ t.ackerr = a2 ∧ t.rx = ses.machine.rx ∧ t.crc = ses.machine.crc ∧
      t.crcerr = ses.machine.crcerr ∧ t.init = true ∧ t.illcmd = ses.machine.illcmd ∧
      t.illacc = ses.machine.illacc ∧ t.seqerr = ses.machine.seqerr ∧
      t.trace = ses.machine.trace ++ startTrace ses.machine.cfg ++ writeTrace ses.machine.cfg 0x80#8 a0 ++
        writeTrace ses.machine.cfg (cmd.extractLsb' 8 8) a1 ++
        writeTrace ses.machine.cfg (cmd.extractLsb' 0 8) a2 ++ stopTrace ses.machine.cfg

/-- R172, R177: `ReadCommandResult` sends START, the address byte 0x81, three READs with the last one not acknowledged,
and STOP, whatever the acknowledge; its error is the acknowledge OR the checksum check; `result` changes only without
error. INIT, ILLCMD, ILLACC and SEQERR stay. Draws as in log 3; the protocol stands outside the block (log 16). -/
def Obligations.ReadCommandResultTransaction : Prop :=
  ∀ (result : BitVec 16) (s : State), s.init = true →
    ∃ (a0 : Bool) (b0 b1 b2 : List Bool) (t : State),
      State.draws 25 s = a0 :: b0 ++ b1 ++ b2 ∧ b0.length = 8 ∧ b1.length = 8 ∧ b2.length = 8 ∧
      (let d0 := byteOfBits b0
       let d1 := byteOfBits b1
       let c := byteOfBits b2
       let crc := crcStep (crcStep 0x00#8 d0) d1
       let e : HostErr := (if a0 then 1#2 else 0#2) ||| (if crc ≠ c then 2#2 else 0#2)
       readCommandResult result s = .next ⟨e, if e = 0#2 then d0 ++ d1 else result, t⟩ ∧
       t.drive = ⟨false, false⟩ ∧ t.rx = c ∧ t.crc = crc ∧ t.ackerr = a0 ∧ t.crcerr = decide (crc ≠ c) ∧
       t.init = true ∧ t.illcmd = s.illcmd ∧ t.illacc = s.illacc ∧ t.seqerr = s.seqerr ∧
       t.trace = s.trace ++ startTrace s.cfg ++ writeTrace s.cfg 0x81#8 a0 ++ readTrace s.cfg .ack b0 ++
         readTrace s.cfg .ack b1 ++ readTrace s.cfg .nack b2 ++ stopTrace s.cfg)

/-- R178: with maxRetries = n ≥ 1 the loop makes at least one and at most n attempts, each with one start condition,
exactly n if it returns an error, and then leaves `result`; with 0 it is refused (log 16). -/
def Obligations.RetriesAreBounded : Prop :=
  (∀ (tRetry n : Nat) (result : BitVec 16) (s : State), s.init = true → s.drive.legal = true → 1 ≤ n →
    ∃ r es, readCommandResultWithTimeout tRetry n result s = .next r ∧ r.machine.trace = s.trace ++ es ∧
      1 ≤ startConditions es s.drive ∧ startConditions es s.drive ≤ n ∧
      stopConditions es s.drive = startConditions es s.drive ∧
      (r.err ≠ 0#2 → startConditions es s.drive = n ∧ r.result = result)) ∧
  (∀ (tRetry : Nat) (result : BitVec 16) (s : State),
    readCommandResultWithTimeout tRetry 0 result s = .refused .zeroRetries)

/-- R179, R184, R185: with the cache at FLOW, `GetFlow` is the read with its 20 attempts and nothing else. Otherwise it
is `WriteCommand(0x1000)`, and only if that gave no error the read, with the cache at FLOW whatever the read gives. An
error comes back at once and leaves `flow`; without one `flow` is `flowOf` of the value read. (Types and the start of raw:
log 16.) -/
def Obligations.GetFlowWritesItsCommandOnce : Prop :=
  ∀ {α β γ : Type} (flowOf : BitVec 16 → α → β → γ) (tRetry : Nat) (offset : α) (scale : β) (flow : γ) (ses : Session),
    ses.machine.init = true →
    (ses.cache = some 0x1000#16 → ∃ r, readCommandResultWithTimeout tRetry 20 0#16 ses.machine = .next r ∧
      getFlow flowOf tRetry offset scale flow ses =
        .next (r.err, if r.err = 0#2 then flowOf r.result offset scale else flow, ⟨r.machine, some 0x1000#16⟩)) ∧
    (ses.cache ≠ some 0x1000#16 → ∃ e w, writeCommand 0x1000#16 ses = .next (e, w) ∧
      (e ≠ 0#2 → w.cache = ses.cache ∧ getFlow flowOf tRetry offset scale flow ses = .next (e, flow, w)) ∧
      (e = 0#2 → w.cache = some 0x1000#16 ∧
        ∃ r, readCommandResultWithTimeout tRetry 20 0#16 w.machine = .next r ∧
          getFlow flowOf tRetry offset scale flow ses =
            .next (r.err, if r.err = 0#2 then flowOf r.result offset scale else flow, ⟨r.machine, some 0x1000#16⟩)))

/-! ### Protocol operations at the register window -/

/-- R213, R183 (in the model's form, log 12): while a protocol operation is in progress, no other may enter, make an
access or leave; its own accesses are the host's; and nothing but entering and leaving changes which one it is. -/
def Obligations.OperationsDoNotInterleave : Prop :=
  (∀ (s : State) (id id' : Nat), s.operation = some id →
    step (s.withInput (.operation id' .enter)) = .refused .interleavedOperations) ∧
  (∀ (s : State) (id : Nat) (e : OperationEvent), e ≠ .enter → s.operation ≠ some id →
    step (s.withInput (.operation id e)) = .refused .interleavedOperations) ∧
  (∀ (s : State) (id : Nat), s.operation = none →
    step (s.withInput (.operation id .enter)) = .next { s with operation := some id }) ∧
  (∀ (s : State) (id : Nat), s.operation = some id →
    step (s.withInput (.operation id .leave)) = .next { s with operation := none } ∧
    (∀ a n, step (s.withInput (.operation id (.read a n))) = step (s.withInput (.read a n))) ∧
    (∀ a n v, step (s.withInput (.operation id (.write a n v))) = step (s.withInput (.write a n v))) ∧
    (∀ a n v k d, step (s.withInput (.operation id (.cutWrite a n v k d))) =
      step (s.withInput (.cutWrite a n v k d)))) ∧
  (∀ s t : State, step s = .next t → t.operation ≠ s.operation →
    ∃ id rest, (s.inputs = .operation id .enter :: rest ∧ s.operation = none ∧ t.operation = some id) ∨
      (s.inputs = .operation id .leave :: rest ∧ s.operation = some id ∧ t.operation = none))
end

