-- ==== Sys2Proof/Laws/State.lean ====
section
/-! SUPPORT. One lemma per field per update of `State`, each true by rfl, and the record form of the line primitives. -/

namespace Sys2Proof.Machine

@[simp] theorem emit_sdaLow (e : Event) (s : State) : (emit e s).sdaLow = s.sdaLow := rfl
@[simp] theorem emit_sclLow (e : Event) (s : State) : (emit e s).sclLow = s.sclLow := rfl
@[simp] theorem emit_init (e : Event) (s : State) : (emit e s).init = s.init := rfl
@[simp] theorem emit_ackerr (e : Event) (s : State) : (emit e s).ackerr = s.ackerr := rfl
@[simp] theorem emit_crcerr (e : Event) (s : State) : (emit e s).crcerr = s.crcerr := rfl
@[simp] theorem emit_illcmd (e : Event) (s : State) : (emit e s).illcmd = s.illcmd := rfl
@[simp] theorem emit_illacc (e : Event) (s : State) : (emit e s).illacc = s.illacc := rfl
@[simp] theorem emit_seqerr (e : Event) (s : State) : (emit e s).seqerr = s.seqerr := rfl
@[simp] theorem emit_rx (e : Event) (s : State) : (emit e s).rx = s.rx := rfl
@[simp] theorem emit_crc (e : Event) (s : State) : (emit e s).crc = s.crc := rfl
@[simp] theorem emit_cfg (e : Event) (s : State) : (emit e s).cfg = s.cfg := rfl
@[simp] theorem emit_inputs (e : Event) (s : State) : (emit e s).inputs = s.inputs := rfl
@[simp] theorem emit_busIn (e : Event) (s : State) : (emit e s).busIn = s.busIn := rfl
@[simp] theorem emit_sampleCount (e : Event) (s : State) : (emit e s).sampleCount = s.sampleCount := rfl
@[simp] theorem emit_trace (e : Event) (s : State) : (emit e s).trace = s.trace ++ [e] := rfl
@[simp] theorem emit_readLog (e : Event) (s : State) : (emit e s).readLog = s.readLog := rfl
@[simp] theorem emit_operation (e : Event) (s : State) : (emit e s).operation = s.operation := rfl

@[simp] theorem setDrive_sda_sdaLow (v : Bool) (s : State) : (setDrive .sda v s).sdaLow = v := rfl
@[simp] theorem setDrive_sda_sclLow (v : Bool) (s : State) : (setDrive .sda v s).sclLow = s.sclLow := rfl
@[simp] theorem setDrive_sda_init (v : Bool) (s : State) : (setDrive .sda v s).init = s.init := rfl
@[simp] theorem setDrive_sda_ackerr (v : Bool) (s : State) : (setDrive .sda v s).ackerr = s.ackerr := rfl
@[simp] theorem setDrive_sda_crcerr (v : Bool) (s : State) : (setDrive .sda v s).crcerr = s.crcerr := rfl
@[simp] theorem setDrive_sda_illcmd (v : Bool) (s : State) : (setDrive .sda v s).illcmd = s.illcmd := rfl
@[simp] theorem setDrive_sda_illacc (v : Bool) (s : State) : (setDrive .sda v s).illacc = s.illacc := rfl
@[simp] theorem setDrive_sda_seqerr (v : Bool) (s : State) : (setDrive .sda v s).seqerr = s.seqerr := rfl
@[simp] theorem setDrive_sda_rx (v : Bool) (s : State) : (setDrive .sda v s).rx = s.rx := rfl
@[simp] theorem setDrive_sda_crc (v : Bool) (s : State) : (setDrive .sda v s).crc = s.crc := rfl
@[simp] theorem setDrive_sda_cfg (v : Bool) (s : State) : (setDrive .sda v s).cfg = s.cfg := rfl
@[simp] theorem setDrive_sda_inputs (v : Bool) (s : State) : (setDrive .sda v s).inputs = s.inputs := rfl
@[simp] theorem setDrive_sda_busIn (v : Bool) (s : State) : (setDrive .sda v s).busIn = s.busIn := rfl
@[simp] theorem setDrive_sda_sampleCount (v : Bool) (s : State) : (setDrive .sda v s).sampleCount = s.sampleCount := rfl
@[simp] theorem setDrive_sda_trace (v : Bool) (s : State) : (setDrive .sda v s).trace = s.trace := rfl
@[simp] theorem setDrive_sda_readLog (v : Bool) (s : State) : (setDrive .sda v s).readLog = s.readLog := rfl
@[simp] theorem setDrive_sda_operation (v : Bool) (s : State) : (setDrive .sda v s).operation = s.operation := rfl

@[simp] theorem setDrive_scl_sdaLow (v : Bool) (s : State) : (setDrive .scl v s).sdaLow = s.sdaLow := rfl
@[simp] theorem setDrive_scl_sclLow (v : Bool) (s : State) : (setDrive .scl v s).sclLow = v := rfl
@[simp] theorem setDrive_scl_init (v : Bool) (s : State) : (setDrive .scl v s).init = s.init := rfl
@[simp] theorem setDrive_scl_ackerr (v : Bool) (s : State) : (setDrive .scl v s).ackerr = s.ackerr := rfl
@[simp] theorem setDrive_scl_crcerr (v : Bool) (s : State) : (setDrive .scl v s).crcerr = s.crcerr := rfl
@[simp] theorem setDrive_scl_illcmd (v : Bool) (s : State) : (setDrive .scl v s).illcmd = s.illcmd := rfl
@[simp] theorem setDrive_scl_illacc (v : Bool) (s : State) : (setDrive .scl v s).illacc = s.illacc := rfl
@[simp] theorem setDrive_scl_seqerr (v : Bool) (s : State) : (setDrive .scl v s).seqerr = s.seqerr := rfl
@[simp] theorem setDrive_scl_rx (v : Bool) (s : State) : (setDrive .scl v s).rx = s.rx := rfl
@[simp] theorem setDrive_scl_crc (v : Bool) (s : State) : (setDrive .scl v s).crc = s.crc := rfl
@[simp] theorem setDrive_scl_cfg (v : Bool) (s : State) : (setDrive .scl v s).cfg = s.cfg := rfl
@[simp] theorem setDrive_scl_inputs (v : Bool) (s : State) : (setDrive .scl v s).inputs = s.inputs := rfl
@[simp] theorem setDrive_scl_busIn (v : Bool) (s : State) : (setDrive .scl v s).busIn = s.busIn := rfl
@[simp] theorem setDrive_scl_sampleCount (v : Bool) (s : State) : (setDrive .scl v s).sampleCount = s.sampleCount := rfl
@[simp] theorem setDrive_scl_trace (v : Bool) (s : State) : (setDrive .scl v s).trace = s.trace := rfl
@[simp] theorem setDrive_scl_readLog (v : Bool) (s : State) : (setDrive .scl v s).readLog = s.readLog := rfl
@[simp] theorem setDrive_scl_operation (v : Bool) (s : State) : (setDrive .scl v s).operation = s.operation := rfl

@[simp] theorem advance_sdaLow (s : State) : (State.advance s).sdaLow = s.sdaLow := rfl
@[simp] theorem advance_sclLow (s : State) : (State.advance s).sclLow = s.sclLow := rfl
@[simp] theorem advance_init (s : State) : (State.advance s).init = s.init := rfl
@[simp] theorem advance_ackerr (s : State) : (State.advance s).ackerr = s.ackerr := rfl
@[simp] theorem advance_crcerr (s : State) : (State.advance s).crcerr = s.crcerr := rfl
@[simp] theorem advance_illcmd (s : State) : (State.advance s).illcmd = s.illcmd := rfl
@[simp] theorem advance_illacc (s : State) : (State.advance s).illacc = s.illacc := rfl
@[simp] theorem advance_seqerr (s : State) : (State.advance s).seqerr = s.seqerr := rfl
@[simp] theorem advance_rx (s : State) : (State.advance s).rx = s.rx := rfl
@[simp] theorem advance_crc (s : State) : (State.advance s).crc = s.crc := rfl
@[simp] theorem advance_cfg (s : State) : (State.advance s).cfg = s.cfg := rfl
@[simp] theorem advance_inputs (s : State) : (State.advance s).inputs = s.inputs := rfl
@[simp] theorem advance_busIn (s : State) : (State.advance s).busIn = s.busIn.tail := rfl
@[simp] theorem advance_sampleCount (s : State) : (State.advance s).sampleCount = s.sampleCount + 1 := rfl
@[simp] theorem advance_trace (s : State) : (State.advance s).trace = s.trace := rfl
@[simp] theorem advance_readLog (s : State) : (State.advance s).readLog = s.readLog := rfl
@[simp] theorem advance_operation (s : State) : (State.advance s).operation = s.operation := rfl

@[simp] theorem raise_illegalCommand_sdaLow (s : State) : (raiseCondition .illegalCommand s).sdaLow = s.sdaLow := rfl
@[simp] theorem raise_illegalCommand_sclLow (s : State) : (raiseCondition .illegalCommand s).sclLow = s.sclLow := rfl
@[simp] theorem raise_illegalCommand_init (s : State) : (raiseCondition .illegalCommand s).init = s.init := rfl
@[simp] theorem raise_illegalCommand_ackerr (s : State) : (raiseCondition .illegalCommand s).ackerr = s.ackerr := rfl
@[simp] theorem raise_illegalCommand_crcerr (s : State) : (raiseCondition .illegalCommand s).crcerr = s.crcerr := rfl
@[simp] theorem raise_illegalCommand_illcmd (s : State) : (raiseCondition .illegalCommand s).illcmd = true := rfl
@[simp] theorem raise_illegalCommand_illacc (s : State) : (raiseCondition .illegalCommand s).illacc = s.illacc := rfl
@[simp] theorem raise_illegalCommand_seqerr (s : State) : (raiseCondition .illegalCommand s).seqerr = s.seqerr := rfl
@[simp] theorem raise_illegalCommand_rx (s : State) : (raiseCondition .illegalCommand s).rx = s.rx := rfl
@[simp] theorem raise_illegalCommand_crc (s : State) : (raiseCondition .illegalCommand s).crc = s.crc := rfl
@[simp] theorem raise_illegalCommand_cfg (s : State) : (raiseCondition .illegalCommand s).cfg = s.cfg := rfl
@[simp] theorem raise_illegalCommand_inputs (s : State) : (raiseCondition .illegalCommand s).inputs = s.inputs := rfl
@[simp] theorem raise_illegalCommand_busIn (s : State) : (raiseCondition .illegalCommand s).busIn = s.busIn := rfl
@[simp] theorem raise_illegalCommand_sampleCount (s : State) : (raiseCondition .illegalCommand s).sampleCount = s.sampleCount := rfl
@[simp] theorem raise_illegalCommand_trace (s : State) : (raiseCondition .illegalCommand s).trace = s.trace := rfl
@[simp] theorem raise_illegalCommand_readLog (s : State) : (raiseCondition .illegalCommand s).readLog = s.readLog := rfl
@[simp] theorem raise_illegalCommand_operation (s : State) : (raiseCondition .illegalCommand s).operation = s.operation := rfl

@[simp] theorem raise_illegalAccess_sdaLow (s : State) : (raiseCondition .illegalAccess s).sdaLow = s.sdaLow := rfl
@[simp] theorem raise_illegalAccess_sclLow (s : State) : (raiseCondition .illegalAccess s).sclLow = s.sclLow := rfl
@[simp] theorem raise_illegalAccess_init (s : State) : (raiseCondition .illegalAccess s).init = s.init := rfl
@[simp] theorem raise_illegalAccess_ackerr (s : State) : (raiseCondition .illegalAccess s).ackerr = s.ackerr := rfl
@[simp] theorem raise_illegalAccess_crcerr (s : State) : (raiseCondition .illegalAccess s).crcerr = s.crcerr := rfl
@[simp] theorem raise_illegalAccess_illcmd (s : State) : (raiseCondition .illegalAccess s).illcmd = s.illcmd := rfl
@[simp] theorem raise_illegalAccess_illacc (s : State) : (raiseCondition .illegalAccess s).illacc = true := rfl
@[simp] theorem raise_illegalAccess_seqerr (s : State) : (raiseCondition .illegalAccess s).seqerr = s.seqerr := rfl
@[simp] theorem raise_illegalAccess_rx (s : State) : (raiseCondition .illegalAccess s).rx = s.rx := rfl
@[simp] theorem raise_illegalAccess_crc (s : State) : (raiseCondition .illegalAccess s).crc = s.crc := rfl
@[simp] theorem raise_illegalAccess_cfg (s : State) : (raiseCondition .illegalAccess s).cfg = s.cfg := rfl
@[simp] theorem raise_illegalAccess_inputs (s : State) : (raiseCondition .illegalAccess s).inputs = s.inputs := rfl
@[simp] theorem raise_illegalAccess_busIn (s : State) : (raiseCondition .illegalAccess s).busIn = s.busIn := rfl
@[simp] theorem raise_illegalAccess_sampleCount (s : State) : (raiseCondition .illegalAccess s).sampleCount = s.sampleCount := rfl
@[simp] theorem raise_illegalAccess_trace (s : State) : (raiseCondition .illegalAccess s).trace = s.trace := rfl
@[simp] theorem raise_illegalAccess_readLog (s : State) : (raiseCondition .illegalAccess s).readLog = s.readLog := rfl
@[simp] theorem raise_illegalAccess_operation (s : State) : (raiseCondition .illegalAccess s).operation = s.operation := rfl

@[simp] theorem raise_sequenceError_sdaLow (s : State) : (raiseCondition .sequenceError s).sdaLow = s.sdaLow := rfl
@[simp] theorem raise_sequenceError_sclLow (s : State) : (raiseCondition .sequenceError s).sclLow = s.sclLow := rfl
@[simp] theorem raise_sequenceError_init (s : State) : (raiseCondition .sequenceError s).init = s.init := rfl
@[simp] theorem raise_sequenceError_ackerr (s : State) : (raiseCondition .sequenceError s).ackerr = s.ackerr := rfl
@[simp] theorem raise_sequenceError_crcerr (s : State) : (raiseCondition .sequenceError s).crcerr = s.crcerr := rfl
@[simp] theorem raise_sequenceError_illcmd (s : State) : (raiseCondition .sequenceError s).illcmd = s.illcmd := rfl
@[simp] theorem raise_sequenceError_illacc (s : State) : (raiseCondition .sequenceError s).illacc = s.illacc := rfl
@[simp] theorem raise_sequenceError_seqerr (s : State) : (raiseCondition .sequenceError s).seqerr = true := rfl
@[simp] theorem raise_sequenceError_rx (s : State) : (raiseCondition .sequenceError s).rx = s.rx := rfl
@[simp] theorem raise_sequenceError_crc (s : State) : (raiseCondition .sequenceError s).crc = s.crc := rfl
@[simp] theorem raise_sequenceError_cfg (s : State) : (raiseCondition .sequenceError s).cfg = s.cfg := rfl
@[simp] theorem raise_sequenceError_inputs (s : State) : (raiseCondition .sequenceError s).inputs = s.inputs := rfl
@[simp] theorem raise_sequenceError_busIn (s : State) : (raiseCondition .sequenceError s).busIn = s.busIn := rfl
@[simp] theorem raise_sequenceError_sampleCount (s : State) : (raiseCondition .sequenceError s).sampleCount = s.sampleCount := rfl
@[simp] theorem raise_sequenceError_trace (s : State) : (raiseCondition .sequenceError s).trace = s.trace := rfl
@[simp] theorem raise_sequenceError_readLog (s : State) : (raiseCondition .sequenceError s).readLog = s.readLog := rfl
@[simp] theorem raise_sequenceError_operation (s : State) : (raiseCondition .sequenceError s).operation = s.operation := rfl

theorem driveLow_sda (s : State) :
    driveLow .sda s = { s with sdaLow := true, trace := s.trace ++ [.low .sda] } := rfl

theorem driveLow_scl (s : State) :
    driveLow .scl s = { s with sclLow := true, trace := s.trace ++ [.low .scl] } := rfl

theorem release_sda (s : State) :
    release .sda s = { s with sdaLow := false, trace := s.trace ++ [.rel .sda] } := rfl

theorem release_scl (s : State) :
    release .scl s = { s with sclLow := false, trace := s.trace ++ [.rel .scl] } := rfl

theorem wait_eq (t : Nat) (s : State) : wait t s = { s with trace := s.trace ++ [.wait t] } := rfl

@[simp] theorem wait_drive (t : Nat) (s : State) : (wait t s).drive = s.drive := rfl
@[simp] theorem driveLow_init (l : Line) (s : State) : (driveLow l s).init = s.init := by cases l <;> rfl
@[simp] theorem driveLow_ackerr (l : Line) (s : State) : (driveLow l s).ackerr = s.ackerr := by cases l <;> rfl
@[simp] theorem driveLow_crcerr (l : Line) (s : State) : (driveLow l s).crcerr = s.crcerr := by cases l <;> rfl
@[simp] theorem driveLow_illcmd (l : Line) (s : State) : (driveLow l s).illcmd = s.illcmd := by cases l <;> rfl
@[simp] theorem driveLow_illacc (l : Line) (s : State) : (driveLow l s).illacc = s.illacc := by cases l <;> rfl
@[simp] theorem driveLow_seqerr (l : Line) (s : State) : (driveLow l s).seqerr = s.seqerr := by cases l <;> rfl
@[simp] theorem driveLow_rx (l : Line) (s : State) : (driveLow l s).rx = s.rx := by cases l <;> rfl
@[simp] theorem driveLow_crc (l : Line) (s : State) : (driveLow l s).crc = s.crc := by cases l <;> rfl
@[simp] theorem driveLow_cfg (l : Line) (s : State) : (driveLow l s).cfg = s.cfg := by cases l <;> rfl
@[simp] theorem driveLow_inputs (l : Line) (s : State) : (driveLow l s).inputs = s.inputs := by cases l <;> rfl
@[simp] theorem driveLow_busIn (l : Line) (s : State) : (driveLow l s).busIn = s.busIn := by cases l <;> rfl
@[simp] theorem driveLow_sampleCount (l : Line) (s : State) : (driveLow l s).sampleCount = s.sampleCount := by cases l <;> rfl
@[simp] theorem driveLow_readLog (l : Line) (s : State) : (driveLow l s).readLog = s.readLog := by cases l <;> rfl
@[simp] theorem driveLow_operation (l : Line) (s : State) : (driveLow l s).operation = s.operation := by cases l <;> rfl
@[simp] theorem driveLow_trace (l : Line) (s : State) : (driveLow l s).trace = s.trace ++ [.low l] := by cases l <;> rfl
@[simp] theorem driveLow_drive (l : Line) (s : State) : (driveLow l s).drive = s.drive.after (.low l) := by cases l <;> rfl

@[simp] theorem release_init (l : Line) (s : State) : (release l s).init = s.init := by cases l <;> rfl
@[simp] theorem release_ackerr (l : Line) (s : State) : (release l s).ackerr = s.ackerr := by cases l <;> rfl
@[simp] theorem release_crcerr (l : Line) (s : State) : (release l s).crcerr = s.crcerr := by cases l <;> rfl
@[simp] theorem release_illcmd (l : Line) (s : State) : (release l s).illcmd = s.illcmd := by cases l <;> rfl
@[simp] theorem release_illacc (l : Line) (s : State) : (release l s).illacc = s.illacc := by cases l <;> rfl
@[simp] theorem release_seqerr (l : Line) (s : State) : (release l s).seqerr = s.seqerr := by cases l <;> rfl
@[simp] theorem release_rx (l : Line) (s : State) : (release l s).rx = s.rx := by cases l <;> rfl
@[simp] theorem release_crc (l : Line) (s : State) : (release l s).crc = s.crc := by cases l <;> rfl
@[simp] theorem release_cfg (l : Line) (s : State) : (release l s).cfg = s.cfg := by cases l <;> rfl
@[simp] theorem release_inputs (l : Line) (s : State) : (release l s).inputs = s.inputs := by cases l <;> rfl
@[simp] theorem release_busIn (l : Line) (s : State) : (release l s).busIn = s.busIn := by cases l <;> rfl
@[simp] theorem release_sampleCount (l : Line) (s : State) : (release l s).sampleCount = s.sampleCount := by cases l <;> rfl
@[simp] theorem release_readLog (l : Line) (s : State) : (release l s).readLog = s.readLog := by cases l <;> rfl
@[simp] theorem release_operation (l : Line) (s : State) : (release l s).operation = s.operation := by cases l <;> rfl
@[simp] theorem release_trace (l : Line) (s : State) : (release l s).trace = s.trace ++ [.rel l] := by cases l <;> rfl
@[simp] theorem release_drive (l : Line) (s : State) : (release l s).drive = s.drive.after (.rel l) := by cases l <;> rfl

@[simp] theorem emit_drive (e : Event) (s : State) : (emit e s).drive = s.drive := rfl

@[simp] theorem advance_drive (s : State) : s.advance.drive = s.drive := rfl

@[simp] theorem raise_drive (c : Condition) (s : State) : (raiseCondition c s).drive = s.drive := by cases c <;> rfl

@[simp] theorem raise_trace (c : Condition) (s : State) : (raiseCondition c s).trace = s.trace := by cases c <;> rfl

@[simp] theorem raise_init (c : Condition) (s : State) : (raiseCondition c s).init = s.init := by cases c <;> rfl

@[simp] theorem raise_cfg (c : Condition) (s : State) : (raiseCondition c s).cfg = s.cfg := by cases c <;> rfl

@[simp] theorem drive_sda (s : State) : s.drive.sda = s.sdaLow := rfl

@[simp] theorem drive_scl (s : State) : s.drive.scl = s.sclLow := rfl

end Sys2Proof.Machine
end

