-- ==== Sys2Proof/Laws/Ops.lean ====
section
/-! SUPPORT. What each shared operation can do, said once: sampling, the draws, runs of line actions, and the closed
form of each command's actions. -/

namespace Sys2Proof.Machine

/-! ### Sampling -/

theorem lineLevel_false_iff (e d : Bool) : lineLevel e d = false ↔ e = true ∨ d = true := by
  cases e <;> cases d <;> simp [lineLevel]

theorem sampleSda_released (s : State) (h : s.sdaLow = false) :
    sampleSda s = (s.nextDraw, emit (.samp s.nextDraw) s.advance) := by
  simp [sampleSda, h, lineLevel]

theorem sampleSda_driven (s : State) (h : s.sdaLow = true) : sampleSda s = (false, emit (.samp false) s) := by
  simp [sampleSda, h, lineLevel]

theorem nextDraw_congr {s t : State} (hb : s.busIn = t.busIn) (hc : s.sampleCount = t.sampleCount) :
    s.nextDraw = t.nextDraw := by
  simp [State.nextDraw, hb, hc]

/-- The draws depend on what the devices have prepared and on the count only. -/
theorem draws_congr (n : Nat) {s t : State} (hb : s.busIn = t.busIn) (hc : s.sampleCount = t.sampleCount) :
    State.draws n s = State.draws n t := by
  induction n generalizing s t with
  | zero => rfl
  | succ n ih =>
    simp only [State.draws, nextDraw_congr hb hc]
    rw [ih (t := t.advance)] <;> simp [hb, hc]

@[simp] theorem draws_length (n : Nat) (s : State) : (State.draws n s).length = n := by
  induction n generalizing s with
  | zero => rfl
  | succ n ih => simp [State.draws, ih]

/-! ### Runs of actions -/

theorem performAll_nil (r : Byte) (s : State) : performAll [] r s = (r, s) := rfl

theorem performAll_cons (a : Action) (as : List Action) (r : Byte) (s : State) :
    performAll (a :: as) r s = performAll as (perform a r s).1 (perform a r s).2 := rfl

theorem performAll_append (as bs : List Action) (r : Byte) (s : State) :
    performAll (as ++ bs) r s = performAll bs (performAll as r s).1 (performAll as r s).2 := by
  induction as generalizing r s with
  | nil => rfl
  | cons a as ih => simp only [List.cons_append, performAll_cons, ih]

/-- Everything one primitive can do, but for the value it leaves: the trace grows by at most one event, and the
parameters, the inputs, the read log, the operation in progress, CRC and the flags no bus command writes stay. -/
theorem perform_frame (a : Action) (r : Byte) (s : State) :
    (∃ es, (perform a r s).2.trace = s.trace ++ es ∧ replay es s.drive = (perform a r s).2.drive) ∧
    (perform a r s).2.cfg = s.cfg ∧ (perform a r s).2.inputs = s.inputs ∧
    (perform a r s).2.readLog = s.readLog ∧ (perform a r s).2.crc = s.crc ∧
    (perform a r s).2.crcerr = s.crcerr ∧ (perform a r s).2.illcmd = s.illcmd ∧
    (perform a r s).2.illacc = s.illacc ∧ (perform a r s).2.seqerr = s.seqerr ∧
    (perform a r s).2.operation = s.operation := by
  cases a with
  | driveLow l => exact ⟨⟨[.low l], by simp [perform], by simp [perform, replay]⟩, by simp [perform]⟩
  | release l => exact ⟨⟨[.rel l], by simp [perform], by simp [perform, replay]⟩, by simp [perform]⟩
  | wait t => exact ⟨⟨[.wait t], rfl, rfl⟩, by simp [perform, wait]⟩
  | sampleBit i =>
    cases h : s.sdaLow
    · exact ⟨⟨[.samp s.nextDraw], by simp [perform, sampleSda_released s h],
        by simp [perform, sampleSda_released s h, replay, Drive.after]⟩, by simp [perform, sampleSda_released s h]⟩
    · exact ⟨⟨[.samp false], by simp [perform, sampleSda_driven s h],
        by simp [perform, sampleSda_driven s h, replay, Drive.after]⟩, by simp [perform, sampleSda_driven s h]⟩
  | sampleAck =>
    cases h : s.sdaLow
    · exact ⟨⟨[.samp s.nextDraw], by simp [perform, sampleSda_released s h],
        by simp [perform, sampleSda_released s h, replay, Drive.after, State.drive]⟩,
        by simp [perform, sampleSda_released s h]⟩
    · exact ⟨⟨[.samp false], by simp [perform, sampleSda_driven s h],
        by simp [perform, sampleSda_driven s h, replay, Drive.after, State.drive]⟩,
        by simp [perform, sampleSda_driven s h]⟩
  | storeRx => exact ⟨⟨[], by simp [perform], rfl⟩, by simp [perform]⟩
  | setInit => exact ⟨⟨[], by simp [perform], rfl⟩, by simp [perform]⟩

theorem replay_append (es fs : List Event) (d : Drive) : replay (es ++ fs) d = replay fs (replay es d) := by
  induction es generalizing d with
  | nil => rfl
  | cons e es ih => exact ih (d.after e)

/-- `perform_frame` for a run of primitives: the events added replay to the drive state reached. -/
theorem performAll_frame (as : List Action) (r : Byte) (s : State) :
    (∃ es, (performAll as r s).2.trace = s.trace ++ es ∧ replay es s.drive = (performAll as r s).2.drive) ∧
    (performAll as r s).2.cfg = s.cfg ∧ (performAll as r s).2.inputs = s.inputs ∧
    (performAll as r s).2.readLog = s.readLog ∧ (performAll as r s).2.crc = s.crc ∧
    (performAll as r s).2.crcerr = s.crcerr ∧ (performAll as r s).2.illcmd = s.illcmd ∧
    (performAll as r s).2.illacc = s.illacc ∧ (performAll as r s).2.seqerr = s.seqerr ∧
    (performAll as r s).2.operation = s.operation := by
  induction as generalizing r s with
  | nil => exact ⟨⟨[], by simp [performAll_nil], rfl⟩, by simp [performAll_nil]⟩
  | cons a as ih =>
    obtain ⟨⟨es, ht, hd⟩, hrest⟩ := perform_frame a r s
    obtain ⟨⟨fs, ht', hd'⟩, hrest'⟩ := ih (perform a r s).1 (perform a r s).2
    refine ⟨⟨es ++ fs, by simp [performAll_cons, ht', ht], ?_⟩, by simp [performAll_cons, hrest, hrest']⟩
    rw [replay_append, hd, performAll_cons, hd']

/-! ### The commands' actions in closed form -/

theorem runActions_init (s : State) :
    runActions initActions s =
      { s with sdaLow := false, sclLow := false, init := true, trace := s.trace ++ initTrace } := by
  simp [runActions, initActions, performAll, perform, release_sda, release_scl, initTrace]

theorem runActions_start (c : Config) (s : State) :
    runActions (startActions c) s = { s with sdaLow := true, sclLow := true, trace := s.trace ++ startTrace c } := by
  simp [runActions, startActions, performAll, perform, release_sda, release_scl, driveLow_sda, driveLow_scl, wait_eq,
    startTrace]

theorem runActions_stop (c : Config) (s : State) :
    runActions (stopActions c) s = { s with sdaLow := false, sclLow := false, trace := s.trace ++ stopTrace c } := by
  simp [runActions, stopActions, performAll, perform, release_sda, release_scl, driveLow_sda, driveLow_scl, wait_eq,
    stopTrace]

theorem runActions_delay (n : BitVec 16) (s : State) :
    runActions (delayActions n) s = { s with trace := s.trace ++ [.wait n.toNat] } := rfl

/-- One WRITE data bit: the line takes the bit's value, the clock ends low. -/
theorem performAll_writeBit (c : Config) (imm8 : Byte) (i : Nat) (r : Byte) (s : State) :
    performAll (writeBitActions c imm8 i) r s =
      (r, { s with sdaLow := !imm8.getLsbD i, sclLow := true,
                   trace := s.trace ++ writeBitTrace c (imm8.getLsbD i) }) := by
  cases h : imm8.getLsbD i <;>
    simp [writeBitActions, h, performAll, perform, release_sda, release_scl, driveLow_sda, driveLow_scl, wait_eq,
      writeBitTrace]

theorem performAll_writeAck (c : Config) (r : Byte) (s : State) :
    performAll (writeAckActions c) r s =
      (r, { s with sdaLow := false, sclLow := true, ackerr := s.nextDraw, busIn := s.busIn.tail,
                   sampleCount := s.sampleCount + 1,
                   trace := s.trace ++ [.rel .sda, .rel .scl, .wait c.tSuDat, .samp s.nextDraw, .low .scl,
                                        .wait c.tTrail] }) := by
  have h (u : State) (hb : u.busIn = s.busIn) (hc : u.sampleCount = s.sampleCount) : u.nextDraw = s.nextDraw :=
    nextDraw_congr hb hc
  simp [writeAckActions, performAll, perform, release_sda, release_scl, driveLow_scl, wait_eq, sampleSda,
    lineLevel, emit, State.advance, h]

/-- One READ data bit, from a released data line: one draw into the partial byte. -/
theorem performAll_readBit (c : Config) (i : Nat) (r : Byte) (s : State) (h : s.sdaLow = false) :
    performAll (readBitActions c i) r s =
      (setBit r i s.nextDraw, { s.advance with sclLow := true, trace := s.trace ++ readBitTrace c s.nextDraw }) := by
  have hd (u : State) (hb : u.busIn = s.busIn) (hc : u.sampleCount = s.sampleCount) : u.nextDraw = s.nextDraw :=
    nextDraw_congr hb hc
  simp [readBitActions, performAll, perform, release_scl, driveLow_scl, wait_eq, sampleSda, h, lineLevel, emit,
    State.advance, hd, readBitTrace]

theorem performAll_readAck (c : Config) (a : AckPolicy) (r : Byte) (s : State) :
    performAll (readAckActions c a) r s =
      (r, { s with sdaLow := false, sclLow := true, rx := r,
                   trace := s.trace ++ [if a = .ack then .low .sda else .rel .sda, .wait c.tSuDat, .rel .scl,
                                        .wait c.tHigh, .low .scl, .rel .sda, .wait c.tTrail] }) := by
  cases a <;>
    simp [readAckActions, performAll, perform, release_sda, release_scl, driveLow_sda, driveLow_scl, wait_eq]

end Sys2Proof.Machine
end

