-- ==== Sys2Proof/Laws/ByteTransfer.lean ====
section
/-! SUPPORT. The closed forms of WRITE's and READ's line actions, put together from the one-bit lemmas. -/

namespace Sys2Proof.Machine

/-- Assembling eight bits by index, bit 7 first, is reading them as a byte most-significant first. -/
theorem setBits_eq_byteOfBits : ∀ b7 b6 b5 b4 b3 b2 b1 b0 : Bool,
    setBit (setBit (setBit (setBit (setBit (setBit (setBit (setBit 0#8 7 b7) 6 b6) 5 b5) 4 b4) 3 b3) 2 b2) 1 b1) 0 b0 =
      byteOfBits [b7, b6, b5, b4, b3, b2, b1, b0] := by decide

theorem byteOfBits_getLsbD : ∀ b7 b6 b5 b4 b3 b2 b1 b0 : Bool,
    (byteOfBits [b7, b6, b5, b4, b3, b2, b1, b0]).getLsbD 7 = b7 ∧
    (byteOfBits [b7, b6, b5, b4, b3, b2, b1, b0]).getLsbD 0 = b0 := by decide

theorem draws_eight (s : State) : State.draws 8 s =
    [s.nextDraw, s.advance.nextDraw, s.advance.advance.nextDraw, s.advance.advance.advance.nextDraw,
     s.advance.advance.advance.advance.nextDraw, s.advance.advance.advance.advance.advance.nextDraw,
     s.advance.advance.advance.advance.advance.advance.nextDraw,
     s.advance.advance.advance.advance.advance.advance.advance.nextDraw] := rfl

/-- WRITE's actions, whatever the state (R111). -/
theorem runActions_write (c : Config) (imm8 : Byte) (s : State) :
    runActions (writeActions c imm8) s =
      { s with sdaLow := false, sclLow := true, ackerr := s.nextDraw, busIn := s.busIn.tail,
               sampleCount := s.sampleCount + 1, trace := s.trace ++ writeTrace c imm8 s.nextDraw } := by
  simp only [runActions, writeActions, bitsDown, List.flatMap_cons, List.flatMap_nil, performAll_append,
    performAll_writeBit, performAll_writeAck, performAll_nil, writeTrace, List.append_assoc]
  simp [State.nextDraw]

/-- READ's actions, whatever the state (R112). -/
theorem runActions_read (c : Config) (a : AckPolicy) (s : State) :
    runActions (readActions c a) s =
      { s with sdaLow := false, sclLow := true, rx := byteOfBits (State.draws 8 s),
               busIn := s.busIn.drop 8, sampleCount := s.sampleCount + 8,
               trace := s.trace ++ readTrace c a (State.draws 8 s) } := by
  simp only [runActions, readActions, bitsDown, List.flatMap_cons, List.flatMap_nil, performAll_append,
    performAll_cons, List.cons_append, perform, release_sda]
  simp [performAll_readBit, performAll_readAck, performAll_nil, draws_eight, readTrace, ← setBits_eq_byteOfBits,
    State.advance, State.nextDraw]
  simp [← List.drop_one]

end Sys2Proof.Machine
end

