-- ==== Sys2Proof/Laws/Decode.lean ====
section
/-! SUPPORT. The opcode map and the encoder: rows do not overlap, the fields of an encoded word, and the byte order. -/

namespace Sys2Proof

/-- The rows have distinct OP values (R73). -/
theorem opcodeTable_ops_distinct :
    opcodeTable.Pairwise (fun r r' => opField r.pattern ≠ opField r'.pattern) := by decide

/-- Every mask covers w[31:24] (R73). -/
theorem opcodeTable_masks_cover_op : ∀ r ∈ opcodeTable, opField r.mask = 0xFF#8 := by decide

theorem selects_iff (r : OpcodeRow) (w : Word) : r.selects w = true ↔ w &&& r.mask = r.pattern := by
  simp [OpcodeRow.selects]

/-- The word a row selects has the row's OP value (R73). -/
theorem opField_of_selects {r : OpcodeRow} {w : Word} (hr : r ∈ opcodeTable) (h : r.selects w = true) :
    opField w = opField r.pattern := by
  rw [← (selects_iff r w).1 h]
  have hm := opcodeTable_masks_cover_op r hr
  refine BitVec.eq_of_getLsbD_eq fun i hi => ?_
  have hb : (opField r.mask).getLsbD i = true := by
    rw [hm]; revert i; decide
  simp only [opField, BitVec.getLsbD_extractLsb'] at hb
  simp only [opField, BitVec.getLsbD_extractLsb', BitVec.getLsbD_and]
  simp_all

theorem wellFormed_always (i : Instr) : i.wellFormed = true := by
  cases i <;> simp [Instr.wellFormed] <;> omega

/-- Splitting a word into its bytes and joining them gives it back (R53). -/
theorem wordOfBytes_wordBytes (w : Word) :
    wordOfBytes (byteLane w 0) (byteLane w 1) (byteLane w 2) (byteLane w 3) = w := by
  refine BitVec.eq_of_getLsbD_eq fun i hi => ?_
  simp only [wordOfBytes, byteLane, BitVec.getLsbD_append, BitVec.getLsbD_extractLsb']
  split
  · simp_all
  · split
    · rw [show 8 * 1 + (i - 8) = i by omega]; simp; omega
    · split
      · rw [show 8 * 2 + (i - 8 - 8) = i by omega]; simp; omega
      · rw [show 8 * 3 + (i - 8 - 8 - 8) = i by omega]; simp; omega

/-! ### The fields of an encoded word -/

theorem opField_encodeN (op : Byte) : opField (encodeN op) = op := by
  refine BitVec.eq_of_getLsbD_eq fun i hi => ?_
  simp only [opField, encodeN, BitVec.getLsbD_append, BitVec.getLsbD_extractLsb']
  simp [hi]

theorem opField_encodeB (op b : Byte) : opField (encodeB op b) = op := by
  refine BitVec.eq_of_getLsbD_eq fun i hi => ?_
  simp only [opField, encodeB, BitVec.getLsbD_append, BitVec.getLsbD_extractLsb']
  simp [hi, show ¬ 24 + i < 8 by omega, show ¬ 24 + i - 8 < 16 by omega, show 24 + i - 8 - 16 = i by omega]

theorem opField_encodeA (op : Byte) (a : AckPolicy) : opField (encodeA op a) = op := by
  refine BitVec.eq_of_getLsbD_eq fun i hi => ?_
  simp only [opField, encodeA, BitVec.getLsbD_append, BitVec.getLsbD_extractLsb']
  simp [hi, show ¬ 24 + i < 1 by omega]

theorem opField_encodeD (op : Byte) (n : BitVec 16) : opField (encodeD op n) = op := by
  refine BitVec.eq_of_getLsbD_eq fun i hi => ?_
  simp only [opField, encodeD, BitVec.getLsbD_append, BitVec.getLsbD_extractLsb']
  simp [hi, show ¬ 24 + i < 16 by omega, show ¬ 24 + i - 16 < 8 by omega, show 24 + i - 16 - 8 = i by omega]

theorem imm8Field_encodeB (op b : Byte) : imm8Field (encodeB op b) = b := by
  refine BitVec.eq_of_getLsbD_eq fun i hi => ?_
  simp only [imm8Field, encodeB, BitVec.getLsbD_append, BitVec.getLsbD_extractLsb']
  simp [hi]

theorem ackField_encodeA (op : Byte) (a : AckPolicy) : ackField (encodeA op a) = a := by
  cases a <;> simp only [ackField, encodeA, BitVec.getLsbD_append, AckPolicy.bit] <;> simp

theorem imm16Field_encodeD (op : Byte) (n : BitVec 16) : imm16Field (encodeD op n) = n := by
  refine BitVec.eq_of_getLsbD_eq fun i hi => ?_
  simp only [imm16Field, encodeD, BitVec.getLsbD_append, BitVec.getLsbD_extractLsb']
  simp [hi]

theorem encodeD_and_mask (op : Byte) (n : BitVec 16) : encodeD op n &&& 0xFFFF0000#32 = encodeD op 0#16 := by
  have hm : ∀ i, i < 32 → (0xFFFF0000#32).getLsbD i = decide (16 ≤ i) := by decide
  refine BitVec.eq_of_getLsbD_eq fun i hi => ?_
  rw [BitVec.getLsbD_and, hm i hi]
  simp only [encodeD, BitVec.getLsbD_append]
  by_cases h : i < 16
  · simp [h]
  · simp [h, show 16 ≤ i by omega]

end Sys2Proof
end

