-- ==== Sys2Proof/Laws/PerInstr.lean ====
section
/-! SUPPORT. A statement about every command as syntax, one lemma per constructor: its word selects the row of its own
mnemonic (R73). -/

namespace Sys2Proof.Laws.EncodeSelectsRow

/-- The word of a command selects the row that carries its mnemonic, and no other row. -/
def Statement (i : Instr) : Prop :=
  opcodeTable.filter (fun r => r.selects (encode i)) =
    opcodeTable.filter (fun r => r.mnemonic == i.mnemonic)

theorem init : Statement .init := by unfold Statement; decide

theorem start : Statement .start := by unfold Statement; decide

theorem stop : Statement .stop := by unfold Statement; decide

theorem write (imm8 : Byte) : Statement (.write imm8) := by
  revert imm8
  unfold Statement
  decide

theorem read (a : AckPolicy) : Statement (.read a) := by cases a <;> (unfold Statement; decide)

theorem crcinit : Statement .crcinit := by unfold Statement; decide

theorem crcupd (imm8 : Byte) : Statement (.crcupd imm8) := by
  revert imm8
  unfold Statement
  decide

theorem crcchk (imm8 : Byte) : Statement (.crcchk imm8) := by
  revert imm8
  unfold Statement
  decide

theorem delay (imm16 : BitVec 16) : Statement (.delay imm16) := by
  have key : ∀ r ∈ opcodeTable, r.selects (encode (.delay imm16)) = (r.mnemonic == Mnemonic.delay) := by
    intro r hr
    by_cases hd : r.mnemonic = .delay
    · have hrow : r = ⟨.delay, 0x20000000#32, 0xFFFF0000#32⟩ := by
        revert hd
        revert r
        decide
      rw [hrow]
      exact (selects_iff _ _).2 (encodeD_and_mask 0x20#8 imm16)
    · have hop : opField r.pattern ≠ 0x20#8 := by
        revert hd
        revert r
        decide
      have : r.selects (encode (.delay imm16)) ≠ true := fun h =>
        hop ((opField_of_selects hr h).symm.trans (opField_encodeD _ _))
      simp_all
  exact List.filter_congr key

end Sys2Proof.Laws.EncodeSelectsRow
end

