-- ==== Sys2Proof/Laws/Step.lean ====
section
/-! SUPPORT. What a step, an input and a command can do, said once. -/

namespace Sys2Proof.Machine

theorem step_idle (s : State) (h : s.inputs = []) : step s = .next s := by
  simp [step, h]

theorem step_withInput (h : HostInput) (s : State) : step (s.withInput h) = performInput h s := rfl

/-- Every state with something to do is some state with one more input. -/
theorem eq_withInput {s : State} {h : HostInput} {rest : List HostInput} (hs : s.inputs = h :: rest) :
    s = State.withInput h { s with inputs := rest } := by
  cases s
  simp_all [State.withInput]

/-- A step either idles or performs one input. -/
theorem step_cases (s : State) :
    (s.inputs = [] ∧ step s = .next s) ∨
      ∃ h u, s = State.withInput h u ∧ step s = performInput h u := by
  cases hs : s.inputs with
  | nil => exact .inl ⟨rfl, step_idle s hs⟩
  | cons h rest => exact .inr ⟨h, { s with inputs := rest }, eq_withInput hs, by simp [step, hs]⟩

/-! ### Addresses -/

@[simp] theorem offset_base (c : Config) : offset c c.base = 0#32 := by simp [offset]

@[simp] theorem offset_base_add (c : Config) (off : Word) : offset c (c.base + off) = off := by
  simp only [offset]
  rw [BitVec.add_comm]
  exact BitVec.add_sub_cancel off c.base

theorem inWindow_base (c : Config) : inWindow c c.base = true := by simp [inWindow]

theorem legalShape_base (c : Config) : legalShape c c.base 4 = true := by simp [legalShape]

theorem hostWrite_base (v : Word) (s : State) : hostWrite s.cfg.base 4 v s = execute v s := by
  simp [hostWrite, inWindow_base, memWrite, legalShape_base]

theorem rxdata_eq (s : State) : s.rxdata = 0#24 ++ s.rx := by
  refine BitVec.eq_of_getLsbD_eq fun i hi => ?_
  simp only [State.rxdata, BitVec.getLsbD_append, BitVec.getLsbD_setWidth]
  by_cases h : i < 8
  · simp [h, hi]
  · simp [h, hi, BitVec.getLsbD_of_ge _ i (Nat.le_of_not_lt h)]

theorem crcval_eq (s : State) : s.crcval = 0#24 ++ s.crc := by
  refine BitVec.eq_of_getLsbD_eq fun i hi => ?_
  simp only [State.crcval, BitVec.getLsbD_append, BitVec.getLsbD_setWidth]
  by_cases h : i < 8
  · simp [h, hi]
  · simp [h, hi, BitVec.getLsbD_of_ge _ i (Nat.le_of_not_lt h)]

/-- A legal read of each readable register (R51): its value to the host, nothing else. -/
theorem hostRead_status (s : State) :
    hostRead (s.cfg.base + 0x04#32) 4 s = { s with readLog := s.readLog ++ [s.status] } := by
  simp only [hostRead, inWindow, memRead, legalShape, offset_base_add]; rfl

theorem hostRead_rxdata (s : State) :
    hostRead (s.cfg.base + 0x08#32) 4 s = { s with readLog := s.readLog ++ [s.rxdata] } := by
  simp only [hostRead, inWindow, memRead, legalShape, offset_base_add]; rfl

theorem hostRead_crcval (s : State) :
    hostRead (s.cfg.base + 0x0C#32) 4 s = { s with readLog := s.readLog ++ [s.crcval] } := by
  simp only [hostRead, inWindow, memRead, legalShape, offset_base_add]; rfl

/-! ### Commands -/

/-- A bus command's refusal while INIT = 0 (R33). -/
theorem busCommand_off (as : List Action) {s : State} (h : s.init = false) :
    busCommand as s = { s with seqerr := true } := by simp [busCommand, h, raiseCondition]

theorem busCommand_on (as : List Action) {s : State} (h : s.init = true) : busCommand as s = runActions as s := by
  simp [busCommand, h]

/-- Continuing after a completed step. -/
@[simp] theorem andThen_next {α β : Type} (a : α) (f : α → Host.Outcome β Fault Refusal) :
    andThen (.next a) f = f a := rfl

@[simp] theorem runCommands_nil (s : State) : runCommands [] s = .next s := rfl

theorem runCommands_cons (i : Instr) (is : List Instr) (s : State) :
    runCommands (i :: is) s = andThen (exec i s) (runCommands is) := rfl

/-! ### Reset -/

/-- Reset in closed form (R40, R230): only the trace still tells the order of the releases. -/
theorem resetBlock_eq (d : ResetDraw) (s : State) :
    resetBlock d s =
      { s with sdaLow := false, sclLow := false, init := false, ackerr := false, crcerr := false, illcmd := false,
               illacc := false, seqerr := false, rx := d.rx, crc := d.crc,
               trace := s.trace ++
                 (if d.sclFirst then [.rel .scl, .rel .sda] else [.rel .sda, .rel .scl]) } := by
  cases h : d.sclFirst <;> simp [resetBlock, resetReleases, h, release_sda, release_scl]

/-- The outcome of an access of the register interface's shape (R51, R52). -/
theorem memRead_illegal {addr : Word} {n : Nat} {s : State} (h : legalShape s.cfg addr n = false) :
    memRead addr n s = (0#32, raiseCondition .illegalAccess s) := by
  simp [memRead, h]

theorem memWrite_illegal {addr : Word} {n : Nat} {v : Word} {s : State} (h : legalShape s.cfg addr n = false) :
    memWrite addr n v s = .next (raiseCondition .illegalAccess s) := by
  simp [memWrite, h]

/-! ### What a step can do -/

theorem ifInProgress_some {id : Nat} {s : State} (o : Host.Outcome State Fault Refusal) (h : s.operation = some id) :
    ifInProgress id s o = o := by
  simp [ifInProgress, h]

theorem ifInProgress_other {id : Nat} {s : State} (o : Host.Outcome State Fault Refusal) (h : s.operation ≠ some id) :
    ifInProgress id s o = .refused .interleavedOperations := by
  simp [ifInProgress, h]

/-- What an operation in progress can complete, it completes as `o` says. -/
theorem ifInProgress_next {id : Nat} {s t : State} {o : Host.Outcome State Fault Refusal}
    (h : ifInProgress id s o = .next t) : s.operation = some id ∧ o = .next t := by
  by_cases hs : s.operation = some id
  · exact ⟨hs, by rwa [ifInProgress_some o hs] at h⟩
  · rw [ifInProgress_other o hs] at h
    cases h

/-- Offset 0 is BASE alone. -/
theorem eq_base_of_offset {c : Config} {addr : Word} (h : offset c addr = 0#32) : addr = c.base :=
  BitVec.sub_eq_iff_eq_add.1 h |>.trans (BitVec.zero_add _)

/-- Everything a host load can do: it may set ILLACC, and it may log one value. -/
theorem hostRead_cases (addr : Word) (n : Nat) (s : State) :
    hostRead addr n s = s ∨ ∃ v, hostRead addr n s = { s with readLog := s.readLog ++ [v] } ∨
      hostRead addr n s = { s with illacc := true, readLog := s.readLog ++ [v] } := by
  simp only [hostRead, memRead]
  split_ifs
  · exact .inr ⟨_, .inl rfl⟩
  · exact .inr ⟨_, .inl rfl⟩
  · exact .inr ⟨_, .inl rfl⟩
  · exact .inr ⟨_, .inl rfl⟩
  · exact .inr ⟨_, .inr rfl⟩
  · exact .inl rfl

/-- Everything a host store can do: nothing, set ILLACC, set ILLCMD, or, at BASE and 4 bytes wide, run a command. -/
theorem hostWrite_cases {addr : Word} {n : Nat} {v : Word} {s t : State} (h : hostWrite addr n v s = .next t) :
    t = s ∨ t = { s with illacc := true } ∨ t = { s with illcmd := true } ∨
      ∃ i, addr = s.cfg.base ∧ n = 4 ∧ decode v = .ok i ∧ exec i s = .next t := by
  simp only [hostWrite, memWrite] at h
  split_ifs at h with _ hshape hoff
  · have hn : n = 4 := by
      simp only [legalShape, Bool.and_eq_true, beq_iff_eq] at hshape
      exact hshape.1
    cases hd : decode v with
    | ok i =>
      simp only [execute, hd] at h
      exact .inr (.inr (.inr ⟨i, eq_base_of_offset hoff, hn, rfl, h⟩))
    | error e =>
      simp only [execute, hd] at h
      cases h
      exact .inr (.inr (.inl rfl))
  · cases h
    exact .inr (.inl rfl)
  · cases h
    exact .inr (.inl rfl)
  · cases h
    exact .inl rfl

/-- Everything a step that is no reset can do: idle; use up an input with no effect, or with an operation entering or
leaving; set ILLCMD or ILLACC; log a read value, with or without ILLACC; or run the command stored to CMD. -/
theorem step_noReset_cases {s t : State} (h : step s = .next t) (hr : s.resetNext = false) :
    t = s ∨
    (∃ rest o, t = { s with inputs := rest, operation := o }) ∨
    (∃ rest, t = { s with inputs := rest, illcmd := true }) ∨
    (∃ rest, t = { s with inputs := rest, illacc := true }) ∨
    (∃ rest v, t = { s with inputs := rest, readLog := s.readLog ++ [v] }) ∨
    (∃ rest v, t = { s with inputs := rest, illacc := true, readLog := s.readLog ++ [v] }) ∨
    (∃ w i rest, s.storesToCmd w ∧ decode w = .ok i ∧ exec i { s with inputs := rest } = .next t) := by
  rcases step_cases s with ⟨_, h'⟩ | ⟨hin, u, rfl, hs⟩
  · rw [h'] at h
    cases h
    exact .inl rfl
  rw [hs] at h
  right
  have read (a : Word) (n : Nat) (ht : hostRead a n u = t) := ht ▸ hostRead_cases a n u
  have write (a : Word) (n : Nat) (v : Word) (ht : hostWrite a n v u = .next t) := hostWrite_cases ht
  cases hin with
  | read a n =>
    simp only [performInput, Host.Outcome.next.injEq] at h
    rcases read a n h with rfl | ⟨v, rfl | rfl⟩
    · exact .inl ⟨_, _, rfl⟩
    · exact .inr (.inr (.inr (.inl ⟨_, _, rfl⟩)))
    · exact .inr (.inr (.inr (.inr (.inl ⟨_, _, rfl⟩))))
  | write a n v =>
    rcases write a n v h with rfl | rfl | rfl | ⟨i, rfl, rfl, hd, he⟩
    · exact .inl ⟨_, _, rfl⟩
    · exact .inr (.inr (.inl ⟨_, rfl⟩))
    · exact .inr (.inl ⟨_, rfl⟩)
    · exact .inr (.inr (.inr (.inr (.inr ⟨v, i, u.inputs, ⟨_, .inl rfl⟩, hd, he⟩))))
  | foreignAccess a =>
    simp only [performInput, foreignAccess] at h
    split_ifs at h
    cases h
    exact .inl ⟨_, _, rfl⟩
  | reset d => simp [State.resetNext, State.withInput] at hr
  | cutWrite a n v k d => simp [State.resetNext, State.withInput] at hr
  | operation id e =>
    simp only [performInput] at h
    cases e with
    | enter =>
      simp only [performOperation] at h
      split_ifs at h
      cases h
      exact .inl ⟨_, _, rfl⟩
    | read a n =>
      have h' := (ifInProgress_next h).2
      simp only [Host.Outcome.next.injEq] at h'
      rcases read a n h' with rfl | ⟨v, rfl | rfl⟩
      · exact .inl ⟨_, _, rfl⟩
      · exact .inr (.inr (.inr (.inl ⟨_, _, rfl⟩)))
      · exact .inr (.inr (.inr (.inr (.inl ⟨_, _, rfl⟩))))
    | write a n v =>
      obtain ⟨hid, h'⟩ := ifInProgress_next h
      rcases write a n v h' with rfl | rfl | rfl | ⟨i, rfl, rfl, hd, he⟩
      · exact .inl ⟨_, _, rfl⟩
      · exact .inr (.inr (.inl ⟨_, rfl⟩))
      · exact .inr (.inl ⟨_, rfl⟩)
      · exact .inr (.inr (.inr (.inr (.inr ⟨v, i, u.inputs, ⟨_, .inr ⟨id, hid, rfl⟩⟩, hd, he⟩))))
    | cutWrite a n v k d => simp [State.resetNext, State.withInput] at hr
    | leave =>
      have h' := (ifInProgress_next h).2
      cases h'
      exact .inl ⟨_, _, rfl⟩

/-- Everything a reset can do, alone or in the middle of a command: some line actions, then the reset. -/
theorem step_reset_cases {s t : State} (h : step s = .next t) (hr : s.resetNext = true) :
    ∃ d as rest, t = resetBlock d (runActions as { s with inputs := rest }) := by
  rcases step_cases s with ⟨h0, _⟩ | ⟨hin, u, rfl, hs⟩
  · simp [State.resetNext, h0] at hr
  rw [hs] at h
  cases hin with
  | reset d =>
    cases h
    exact ⟨d, [], u.inputs, rfl⟩
  | cutWrite a n v k d =>
    cases h
    exact ⟨d, _, u.inputs, rfl⟩
  | read _ _ => simp [State.resetNext, State.withInput] at hr
  | write _ _ _ => simp [State.resetNext, State.withInput] at hr
  | foreignAccess _ => simp [State.resetNext, State.withInput] at hr
  | operation id e =>
    cases e with
    | cutWrite a n v k d =>
      have h' := (ifInProgress_next h).2
      cases h'
      exact ⟨d, _, u.inputs, rfl⟩
    | enter => simp [State.resetNext, State.withInput] at hr
    | read _ _ => simp [State.resetNext, State.withInput] at hr
    | write _ _ _ => simp [State.resetNext, State.withInput] at hr
    | leave => simp [State.resetNext, State.withInput] at hr

end Sys2Proof.Machine
end

