-- ==== Sys2Proof/Laws/Waveform.lean ====
section
/-! SUPPORT. The trace functions over a trace put together from two parts. -/

namespace Sys2Proof.Machine

theorem startConditions_append (es fs : List Event) (d : Drive) :
    startConditions (es ++ fs) d = startConditions es d + startConditions fs (replay es d) := by
  induction es generalizing d with
  | nil => simp [startConditions, replay]
  | cons e es ih => simp [startConditions, replay, ih, Nat.add_assoc]

theorem stopConditions_append (es fs : List Event) (d : Drive) :
    stopConditions (es ++ fs) d = stopConditions es d + stopConditions fs (replay es d) := by
  induction es generalizing d with
  | nil => simp [stopConditions, replay]
  | cons e es ih => simp [stopConditions, replay, ih, Nat.add_assoc]

theorem minDuration_append (es fs : List Event) : minDuration (es ++ fs) = minDuration es + minDuration fs := by
  induction es with
  | nil => simp [minDuration]
  | cons e es ih => cases e <;> simp [minDuration, ih, Nat.add_assoc]

theorem sampledLevels_append (es fs : List Event) :
    sampledLevels (es ++ fs) = sampledLevels es ++ sampledLevels fs := by
  induction es with
  | nil => simp [sampledLevels]
  | cons e es ih => cases e <;> simp [sampledLevels, ih]

theorem sdaMovesWhileClockLow_append (es fs : List Event) (d : Drive) :
    sdaMovesWhileClockLow (es ++ fs) d =
      (sdaMovesWhileClockLow es d && sdaMovesWhileClockLow fs (replay es d)) := by
  induction es generalizing d with
  | nil => simp [sdaMovesWhileClockLow, replay]
  | cons e es ih => simp [sdaMovesWhileClockLow, replay, ih, Bool.and_assoc]

theorem samplesReleased_append (es fs : List Event) (d : Drive) :
    samplesReleased (es ++ fs) d = (samplesReleased es d && samplesReleased fs (replay es d)) := by
  induction es generalizing d with
  | nil => simp [samplesReleased, replay]
  | cons e es ih => cases e <;> simp [samplesReleased, replay, ih, Bool.and_assoc, Drive.after]

end Sys2Proof.Machine
end

