-- ==== Sys2Proof/Tests/Slice0.lean ====
section
/-! SUPPORT. Tests whose expected values come from spec/95_test_vectors.md (the vector is named in each comment) or from
a rule worked by hand, and a witness for the hypotheses of each statement of Certificates/Slice0/Obligations.lean. -/

namespace Sys2Proof.Tests

open Sys2Proof.Machine

/-! ### Small states and readers -/

/-- Parameters with BASE = 0x40000000, so that no test leans on BASE = 0. -/
def cfg : Config := { Config.reference with baseBlock := 0x4000000#28 }

/-- Right after reset, RX and CRC at 0x12 and 0xB6, and the draws of the devices prepared. -/
def off (draws : List Bool) : State := { State.afterReset cfg 0x12#8 0xB6#8 with busIn := draws }

/-- After INIT: both lines released. -/
def idle (draws : List Bool) : State := { off draws with init := true }

/-- After START: both lines low. -/
def started (draws : List Bool) : State := { idle draws with sdaLow := true, sclLow := true }

/-- Inside a transaction: the clock low. -/
def between (draws : List Bool) : State := { idle draws with sclLow := true }

/-- A value of the next state, `none` where the machine stops. -/
def valueAfter {α : Type} (f : State → α) : Host.Outcome State Fault Refusal → Option α
  | .next t => some (f t)
  | .fault _ => none
  | .refused _ => none

/-- The bits of a byte as a device sends them, most-significant first (R54). -/
def bits (b : Byte) : List Bool := bitsDown.map b.getLsbD

/-- One reset, RX and CRC drawn as 0x5A and 0xA5. -/
def draw : ResetDraw := ⟨0x5A#8, 0xA5#8, true⟩

/-- A host store of a word to CMD. -/
def cmd (w : Word) : HostInput := .write 0x40000000#32 4 w

/-! ### Well-formedness: an ill-formed term for each check (R76, R77) -/

theorem test_wf_refuses_write : (Asm.write 256).wellFormed = false := by decide
theorem test_wf_refuses_crcupd : (Asm.crcupd 256).wellFormed = false := by decide
theorem test_wf_refuses_crcchk : (Asm.crcchk 256).wellFormed = false := by decide
theorem test_wf_refuses_delay : (Asm.delay 65536).wellFormed = false := by decide
theorem test_wf_refuses_checkcrc_expected : (Asm.checkcrc 256 [0]).wellFormed = false := by decide
theorem test_wf_refuses_checkcrc_data : (Asm.checkcrc 0 [0, 256]).wellFormed = false := by decide
theorem test_wf_refuses_addrw : (Asm.addrw 128).wellFormed = false := by decide
theorem test_wf_refuses_addrr : (Asm.addrr 128).wellFormed = false := by decide
theorem test_wf_accepts_bounds :
    [Asm.write 255, .crcupd 255, .crcchk 255, .delay 65535, .checkcrc 255 [255], .checkcrc 0 [], .addrw 127, .addrr 127,
      .delayl 70000].all Asm.wellFormed = true := by decide

/-! ### Decoding: a word written out from R71 to R73 for every constructor; illegal words of section 2.6 -/

theorem test_decode_init : decode 0b00000001_00000000_00000000_00000000#32 = .ok .init := by rfl
theorem test_decode_start : decode 0b00000010_00000000_00000000_00000000#32 = .ok .start := by rfl
theorem test_decode_stop : decode 0b00000011_00000000_00000000_00000000#32 = .ok .stop := by rfl
theorem test_decode_write : decode 0b00000100_00000000_00000000_10100101#32 = .ok (.write 0xA5#8) := by rfl
theorem test_decode_read_ack : decode 0b00000101_00000000_00000000_00000001#32 = .ok (.read .ack) := by rfl
theorem test_decode_read_nack : decode 0b00000101_00000000_00000000_00000000#32 = .ok (.read .nack) := by rfl
theorem test_decode_crcinit : decode 0b00010000_00000000_00000000_00000000#32 = .ok .crcinit := by rfl
theorem test_decode_crcupd : decode 0b00010001_00000000_00000000_10111110#32 = .ok (.crcupd 0xBE#8) := by rfl
theorem test_decode_crcchk : decode 0b00010010_00000000_00000000_10010010#32 = .ok (.crcchk 0x92#8) := by rfl
theorem test_decode_delay : decode 0b00100000_00000000_00100111_00010000#32 = .ok (.delay 10000#16) := by rfl
theorem test_decode_unassigned :
    [0x00000000#32, 0xFFFFFFFF#32, 0x00010000#32, 0x06000000#32, 0x13000000#32, 0x21000000#32].map decode =
      List.replicate 6 (.error .unassignedOp) := by rfl
theorem test_decode_reserved :
    [0x01000001#32, 0x02800000#32, 0x04000100#32, 0x05000002#32, 0x12000113#32, 0x20FF0000#32].map decode =
      List.replicate 6 (.error .reservedBitSet) := by rfl
/-- R53, R70: four bytes in little-endian order; three are no word. -/
theorem test_decode_bytes :
    decodeBytes [0x80#8, 0x00#8, 0x00#8, 0x04#8, 0x77#8] = .ok (.write 0x80#8, [0x77#8]) ∧
    decodeBytes [0x80#8, 0x00#8, 0x00#8] = .error .truncated ∧
    decodeTableWord 32 0x04000080 = some (.write 0x80#8) ∧ decodeTableWord 32 0x04000100 = none := ⟨rfl, rfl, rfl, rfl⟩

/-! ### Assembler text (R76, R77; section 2.5) -/

theorem test_parse_write : parseLine "write 0x80".toList = some (.write 128) := by decide
theorem test_parse_read : parseLine " READ nack ".toList = some (.read .nack) := by decide
theorem test_parse_checkcrc : parseLine "CHECKCRC 0xB6, 0x12, 0x34".toList = some (.checkcrc 0xB6 [0x12, 0x34]) := by decide
theorem test_parse_refuses_missing_operand : parseLine "WRITE".toList = none := by decide
theorem test_assemble_address_bytes :
    assemble (.addrw 64) = some [0x04000080#32] ∧ assemble (.addrr 64) = some [0x04000081#32] := ⟨rfl, rfl⟩
theorem test_assemble_checkcrc :
    assemble (.checkcrc 0xB6 [0x12, 0x34]) = some [0x10000000#32, 0x11000012#32, 0x11000034#32, 0x120000B6#32] := by rfl
theorem test_delayl_expansions :
    delaylExpansion 0 = [.delay 0#16] ∧ delaylExpansion 65535 = [.delay 65535#16] ∧
    delaylExpansion 70000 = [.delay 65535#16, .delay 4465#16] ∧
    delaylExpansion 131071 = [.delay 65535#16, .delay 65535#16, .delay 1#16] := ⟨rfl, rfl, rfl, rfl⟩

/-! ### The commands, one step each -/

/-- V1-1. -/
theorem test_init : valueAfter State.status (exec .init (off [])) = some 0x00000100#32 ∧
    valueAfter State.trace (exec .init (off [])) = some [.rel .sda, .rel .scl] := ⟨rfl, rfl⟩
/-- V1-4, from drive (1, 1): no condition. -/
theorem test_init_after_start : valueAfter State.status (exec .init (started [])) = some 0x00000100#32 := by rfl
/-- V1-2. -/
theorem test_start : valueAfter State.status (exec .start (idle [])) = some 0x00030100#32 ∧
    valueAfter (fun t => minDuration t.trace) (exec .start (idle [])) = some 22 := ⟨rfl, rfl⟩
/-- V1-7. -/
theorem test_start_before_init : valueAfter State.status (exec .start (off [])) = some 0x00000010#32 := by rfl
/-- V1-3. -/
theorem test_stop : valueAfter State.status (exec .stop (between [])) = some 0x00000100#32 ∧
    valueAfter (fun t => driveEvents t.trace) (exec .stop (between [])) =
      some [.low .scl, .low .sda, .rel .scl, .rel .sda] := ⟨rfl, rfl⟩
/-- V1-8. -/
theorem test_stop_before_init : valueAfter State.status (exec .stop (off [])) = some 0x00000010#32 := by rfl
/-- V2-6: D(1), D(0), D(1), D(0), D(0), D(1), D(0), D(1): the line's drive events, bit 7 first. -/
theorem test_write_bits : valueAfter (fun t => (driveEvents t.trace).take 9) (exec (.write 0xA5#8) (started [false])) =
    some [.rel .sda, .rel .scl, .low .scl, .low .sda, .rel .scl, .low .scl, .rel .sda, .rel .scl, .low .scl] := by rfl
/-- V2-4, V2-5: the acknowledge of the last WRITE alone counts. -/
theorem test_write_acknowledge :
    valueAfter State.status (exec (.write 0xFF#8) (started [true])) = some 0x00020101#32 ∧
    valueAfter State.status (exec (.write 0x81#8) { started [false] with ackerr := true }) = some 0x00020100#32 := ⟨rfl, rfl⟩
/-- V3-4: bits of 0xA5, first in bit 7. -/
theorem test_read_byte : valueAfter State.rx (exec (.read .ack) (between (bits 0xA5#8))) = some 0xA5#8 := by rfl
/-- V3-5: READ keeps ACKERR; the acknowledge bit of A = 1 pulls the data line low. -/
theorem test_read_acknowledges :
    valueAfter State.status (exec (.read .ack) { between (bits 0x12#8) with ackerr := true }) = some 0x00020101#32 ∧
    valueAfter (fun t => (t.trace.drop 41).take 1) (exec (.read .ack) (between (bits 0x12#8))) = some [.low .sda] :=
  ⟨rfl, rfl⟩
/-- V4-1. -/
theorem test_crcinit : valueAfter State.crc (exec .crcinit (off [])) = some 0x00#8 := by rfl
/-- V4-3. -/
theorem test_crcupd : valueAfter State.crc (exec (.crcupd 0xEF#8) { off [] with crc := 0xA0#8 }) = some 0x13#8 := by rfl
/-- V4-7. -/
theorem test_crcupd_self : valueAfter State.crc (exec (.crcupd 0x5A#8) { off [] with crc := 0x5A#8 }) = some 0x00#8 := by rfl
/-- V4-5, V4-6. -/
theorem test_crcchk :
    valueAfter State.crcerr (exec (.crcchk 0x92#8) { off [] with crc := 0x13#8 }) = some true ∧
    valueAfter State.crcerr (exec (.crcchk 0x13#8) { off [] with crc := 0x13#8, crcerr := true }) = some false := ⟨rfl, rfl⟩
/-- V5-2, with INIT = 0. -/
theorem test_delay : valueAfter State.trace (exec (.delay 65535#16) (off [])) = some [.wait 65535] ∧
    valueAfter State.status (exec (.delay 65535#16) (off [])) = some 0x00000000#32 := ⟨rfl, rfl⟩
/-- The table of section 2.4. -/
theorem test_crc_table :
    crcOf [0x00#8, 0x01#8] = 0x31#8 ∧ crcOf [0x01#8, 0x00#8] = 0xF4#8 ∧ crcOf [0x80#8, 0x00#8] = 0x23#8 ∧
    crcOf [0x12#8, 0x34#8] = 0xB6#8 ∧ crcOf [0x56#8, 0x78#8] = 0xFC#8 ∧ crcOf [0xBE#8, 0xEF#8] = 0x13#8 ∧
    crcOf [0xFF#8, 0xFF#8] = 0x2D#8 ∧ crcOf [0x12#8, 0x34#8, 0xB6#8] = 0x00#8 := by
  simp [crcOf, crcStep, crcShifts, crcShift]
/-- Section 2.1's table of conditions, from (1, 0), which is never reached. -/
theorem test_conditions_from_unreachable_drive :
    stopConditions (startTrace cfg) ⟨true, false⟩ = 1 ∧ startConditions (startTrace cfg) ⟨true, false⟩ = 1 ∧
    stopConditions (stopTrace cfg) ⟨true, false⟩ = 1 ∧ stopConditions initTrace ⟨true, false⟩ = 1 := by decide

/-! ### The register interface and a step -/

/-- V7-1 to V7-3. -/
theorem test_reads : (memRead 0x40000004#32 4 (idle [])).1 = 0x00000100#32 ∧
    (memRead 0x40000008#32 4 (idle [])).1 = 0x00000012#32 ∧ (memRead 0x4000000C#32 4 (idle [])).1 = 0x000000B6#32 ∧
    (memRead 0x40000000#32 4 (idle [])).1 = 0x00000000#32 := by decide
/-- V7-5, V7-6. -/
theorem test_illegal_reads :
    valueAfter (fun t => (t.readLog, t.status)) (step ((idle []).withInput (.read 0x40000008#32 1))) =
      some ([0x00000000#32], 0x00000108#32) ∧
    valueAfter (fun t => (t.readLog, t.status)) (step ((idle []).withInput (.read 0x40000006#32 4))) =
      some ([0x00000000#32], 0x00000108#32) := ⟨rfl, rfl⟩
/-- V7-8, V7-10. -/
theorem test_illegal_writes :
    valueAfter (fun t => (t.crc, t.status)) (step ((idle []).withInput (.write 0x4000000C#32 4 0#32))) =
      some (0xB6#8, 0x00000108#32) ∧
    valueAfter (fun t => (t.trace, t.status)) (step ((idle []).withInput (.write 0x40000002#32 4 0x02000000#32))) =
      some ([], 0x00000108#32) := ⟨rfl, rfl⟩
/-- Section 2.6: illegal beats sequence. -/
theorem test_illegal_word_before_init :
    valueAfter State.status (step ((off []).withInput (cmd 0x00000000#32))) = some 0x00000004#32 := by rfl
/-- P6, step 5: START with sticky bits set. -/
theorem test_step_start_with_sticky_bits :
    valueAfter State.status (step ({ idle [] with illcmd := true, seqerr := true }.withInput (cmd 0x02000000#32))) =
      some 0x00030114#32 := by rfl
theorem test_step_runs_fetch_word :
    valueAfter State.status (step (State.reset.withFetchWord 32 0x01000000)) = some 0x00000100#32 := by rfl
/-- R231: START cut after `Low(SDA)`, its fifth line action, then the two releases of reset, SCL first as drawn. -/
theorem test_reset_in_start :
    valueAfter State.trace (step ((idle []).withInput (.cutWrite 0x40000000#32 4 0x02000000#32 5 draw))) =
      some [.rel .sda, .wait 1, .rel .scl, .wait 1, .low .sda, .rel .scl, .rel .sda] := by rfl

/-- U19, R213: while operation 1 is in progress, a store of operation 2 is refused and one of operation 1 runs. -/
theorem test_interleaved_operations_refused :
    step ({ idle [] with operation := some 1 }.withInput
      (.operation 2 (.write 0x40000000#32 4 0x03000000#32))) = .refused .interleavedOperations ∧
    valueAfter State.status (step ({ idle [] with operation := some 1 }.withInput
      (.operation 1 (.write 0x40000000#32 4 0x02000000#32)))) = some 0x00030100#32 := ⟨rfl, rfl⟩
/-- R240: the last READ of a transaction must use NACK, a repeated START between (log 22) notwithstanding. -/
theorem test_frame_last_read_uses_nack :
    Frame.idle.run [.start, .read .ack, .start, .stop] = none ∧
    Frame.idle.run [.start, .read .ack, .start, .read .nack, .stop, .stop] = some .idle := by decide

/-! ### The host protocol: the words it leaves to the machine -/

/-- L1-8. -/
theorem test_address_bytes : addressByte sensorAddress false = 0x80#8 ∧ addressByte sensorAddress true = 0x81#8 := by decide
/-- R171, R176: the error of one byte is STATUS bit 0. -/
theorem test_write_byte_error :
    (match writeByte 0x80#8 (started [true]) with | .next r => some (r.1, r.2.readLog) | .fault _ => none | .refused _ => none) =
      some (1#2, [0x00020101#32]) := by rfl

/-! ### Witnesses: concrete states and operands that meet the hypotheses of each statement -/

/-- A word the decoder rejects stands for no command. -/
theorem illegal_of_error {w : Word} {e : DecodeError} (h : decode w = .error e) : ∀ i, decode w ≠ .ok i := by
  simp [h]

theorem witness_DecodedWordIsTheEncoding : decode 0x2000FFFF#32 = .ok (.delay 0xFFFF#16) := by rfl

/-- An unassigned OP; and words at the edges of the other clauses. -/
theorem witness_OpcodeMap :
    (0x21000000#32 : Word).extractLsb' 24 8 ∉
      [0x01#8, 0x02#8, 0x03#8, 0x04#8, 0x05#8, 0x10#8, 0x11#8, 0x12#8, 0x20#8] ∧
    0x040000FF#32 &&& 0xFFFFFF00#32 = 0x04000000#32 ∧ 0x2000FFFF#32 &&& 0xFFFF0000#32 = 0x20000000#32 ∧
    (⟨.write, 0x04000000#32, 0xFFFFFF00#32⟩ : OpcodeRow).selects 0x04000000#32 = true := by decide

/-- A lowest and a highest reserved bit in each format, and an unassigned OP. -/
theorem witness_IllegalWordsSetOnlyIllcmd :
    (∀ i, decode 0x01000001#32 ≠ .ok i) ∧ (∀ i, decode 0x10800000#32 ≠ .ok i) ∧ (∀ i, decode 0x04000100#32 ≠ .ok i) ∧
    (∀ i, decode 0x12800000#32 ≠ .ok i) ∧ (∀ i, decode 0x05000002#32 ≠ .ok i) ∧ (∀ i, decode 0x05800000#32 ≠ .ok i) ∧
    (∀ i, decode 0x20010000#32 ≠ .ok i) ∧ (∀ i, decode 0x20800000#32 ≠ .ok i) ∧ (∀ i, decode 0x21000000#32 ≠ .ok i) :=
  ⟨illegal_of_error rfl, illegal_of_error rfl, illegal_of_error rfl, illegal_of_error rfl, illegal_of_error rfl,
   illegal_of_error rfl, illegal_of_error rfl, illegal_of_error rfl, illegal_of_error rfl⟩

theorem witness_StepRunsDecodedCommand : decode 0x01000000#32 = .ok .init ∧ (idle []).inputs = [] := ⟨rfl, rfl⟩

/-- Each of the three clauses: an illegal word; a bus command with INIT = 0; a bus command with INIT = 1 and another
command with INIT = 0. -/
theorem witness_ExecuteChecksThenRuns :
    (∀ i, decode 0x00000000#32 ≠ .ok i) ∧
    (decode 0x02000000#32 = .ok .start ∧ (off []).init = false) ∧
    (decode 0x02000000#32 = .ok .start ∧ (idle []).init = true) ∧
    (decode 0x10000000#32 = .ok .crcinit ∧ isBusCommand .crcinit = false) :=
  ⟨illegal_of_error rfl, ⟨rfl, rfl⟩, ⟨rfl, rfl⟩, ⟨rfl, rfl⟩⟩

/-- First and last address of the window. -/
theorem witness_StepsStopOnlyOnSharedUse :
    (0x40000000#32 - (idle []).cfg.base).toNat < 16 ∧ (0x4000000F#32 - (idle []).cfg.base).toNat < 16 := by decide

/-- The three drive states of R96. -/
theorem witness_InitReleasesBothLines :
    (⟨false, false⟩ : Drive).legal = true ∧ (⟨true, true⟩ : Drive).legal = true ∧
    (⟨false, true⟩ : Drive).legal = true := by decide

theorem witness_StartResult : (idle []).init = true ∧ (off []).init = false := ⟨rfl, rfl⟩

theorem witness_StopResult : (between []).init = true ∧ (off []).init = false := ⟨rfl, rfl⟩

theorem witness_WriteResult : (started [false]).init = true ∧ (off []).init = false ∧
    0x040000FF#32 &&& 0xFFFFFF00#32 = 0x04000000#32 := by decide

/-- Among them the undriven line, all draws 1. -/
theorem witness_ReadResult : (between (bits 0xFF#8)).init = true ∧ (off []).init = false ∧
    State.draws 8 (between (bits 0xFF#8)) = List.replicate 8 true ∧ 0x05000001#32 &&& 0xFFFFFFFE#32 = 0x05000000#32 ∧
    (bits 0x12#8).length = 8 := by decide

theorem witness_CrcCommandResults :
    0x110000FF#32 &&& 0xFFFFFF00#32 = 0x11000000#32 ∧ 0x120000FF#32 &&& 0xFFFFFF00#32 = 0x12000000#32 := by decide

theorem witness_DelayResult : 0x2000FFFF#32 &&& 0xFFFF0000#32 = 0x20000000#32 := by decide

/-- A step that keeps SEQERR, and one that sets it. -/
theorem witness_SequenceErrorRule : (off []).init = false ∧
    (∃ t, step ({ off [] with seqerr := true }.withInput (cmd 0x01000000#32)) = .next t ∧
      ({ off [] with seqerr := true }.withInput (cmd 0x01000000#32)).resetNext = false ∧ t.seqerr = true) ∧
    (∃ t, step ((off []).withInput (cmd 0x05000001#32)) = .next t ∧ (off []).seqerr = false ∧ t.seqerr = true) :=
  ⟨rfl, ⟨_, rfl, rfl, rfl⟩, ⟨_, rfl, rfl, rfl⟩⟩

theorem witness_StateWritersTable : (isBusCommand .stop = true → (idle []).init = true) ∧
    (isBusCommand (.delay 0#16) = true → (off []).init = true) ∧ (isBusCommand .stop = true ∧ (off []).init = false) ∧
    (∀ i, decode 0x06000000#32 ≠ .ok i) :=
  ⟨fun _ => rfl, by decide, ⟨rfl, rfl⟩, illegal_of_error rfl⟩

theorem witness_FlagsDoNotSteerCommands : (started [true]).init = true := by rfl

theorem witness_ReadOnlyRegistersRejectWrites :
    0x04#32 ∈ [0x04#32, 0x08#32, 0x0C#32] ∧ 0x0C#32 ∈ [0x04#32, 0x08#32, 0x0C#32] ∧ 5 ∉ [0, 1, 2, 3, 4, 8, 16, 17] ∧
    18 ∉ [0, 1, 2, 3, 4, 8, 16, 17] := by decide

/-- A narrow access at the first address, a misaligned one at the last. -/
theorem witness_IllegalAccessesSetIllacc :
    ((0x40000000#32 - (idle []).cfg.base).toNat < 16 ∧ 2 ≠ 4) ∧
    ((0x4000000F#32 - (idle []).cfg.base).toNat < 16 ∧ (0x4000000F#32 - (idle []).cfg.base).toNat % 4 ≠ 0) := by decide

/-- The first address above the window and the last below it. -/
theorem witness_OutsideTheWindowNothingHappens :
    16 ≤ (0x40000010#32 - (idle []).cfg.base).toNat ∧ 16 ≤ (0x3FFFFFFF#32 - (idle []).cfg.base).toNat := by decide

theorem witness_ReadAfterCommandSeesItsResult :
    (0x04#32, (off []).status) ∈ [(0x04#32, (off []).status), (0x08#32, (off []).rxdata), (0x0C#32, (off []).crcval)] := by
  decide

theorem witness_StickyBitsOnlyResetClears : (∀ i, decode 0x00000000#32 ≠ .ok i) ∧
    ((0x40000000#32 - (idle []).cfg.base).toNat < 16 ∧ 1 ≠ 4) ∧
    ∃ t, step ({ idle [] with illcmd := true, illacc := true }.withInput (cmd 0x01000000#32)) = .next t ∧
      ({ idle [] with illcmd := true, illacc := true }.withInput (cmd 0x01000000#32)).resetNext = false :=
  ⟨illegal_of_error rfl, by decide, _, rfl, rfl⟩

/-- A step that keeps INIT, and one that sets it, by the host and by the operation in progress. -/
theorem witness_InitFlagRule :
    (∃ t, step ((idle []).withInput (cmd 0x02000000#32)) = .next t ∧
      ((idle []).withInput (cmd 0x02000000#32)).resetNext = false ∧ (idle []).init = true) ∧
    (∃ t, step ((off []).withInput (cmd 0x01000000#32)) = .next t ∧ (off []).init = false ∧ t.init = true) ∧
    (∃ t, step ({ off [] with operation := some 7 }.withInput (.operation 7 (.write 0x40000000#32 4 0x01000000#32))) =
      .next t ∧ t.init = true) :=
  ⟨⟨_, rfl, rfl, rfl⟩, ⟨_, rfl, rfl, rfl⟩, ⟨_, rfl, rfl⟩⟩

/-- One step for each result, in which it changes. -/
theorem witness_ResultsHaveOneWriter :
    (∃ t, step ((started [true]).withInput (cmd 0x04000000#32)) = .next t ∧ t.ackerr ≠ (started [true]).ackerr) ∧
    (∃ t, step ((off []).withInput (cmd 0x12000000#32)) = .next t ∧ t.crcerr ≠ (off []).crcerr) ∧
    (∃ t, step ((between (bits 0xFF#8)).withInput (cmd 0x05000000#32)) = .next t ∧
      t.rx ≠ (between (bits 0xFF#8)).rx) ∧
    (∃ t, step ((off []).withInput (cmd 0x10000000#32)) = .next t ∧ t.crc ≠ (off []).crc) ∧
    (∃ t, step ((off []).withInput (cmd 0x110000B6#32)) = .next t ∧ t.crc ≠ (off []).crc) ∧
    ((off []).withInput (cmd 0x10000000#32)).resetNext = false ∧ (started [true]).init = true :=
  ⟨⟨_, rfl, by decide⟩, ⟨_, rfl, by decide⟩, ⟨_, rfl, by decide⟩, ⟨_, rfl, by decide⟩, ⟨_, rfl, by decide⟩, rfl, rfl⟩

theorem witness_OneConditionPerCommandWord : ∀ i, decode 0x00000000#32 ≠ .ok i := illegal_of_error rfl

/-- A cut before the first action and one after the last, of a command that runs. -/
theorem witness_ResetDuringACommandCutsItsTrace :
    decode 0x02000000#32 = .ok .start ∧ (isBusCommand .start = true → (idle []).init = true) ∧
    (startTrace cfg).length + 2 ≤ 10 := ⟨rfl, fun _ => rfl, by decide⟩

theorem witness_EveryStepKeepsTheInvariant :
    (off []).Inv ∧ ∃ t, step ((off []).withInput (cmd 0x01000000#32)) = .next t :=
  ⟨⟨rfl, fun _ => rfl, rfl⟩, _, rfl⟩

theorem witness_DriveStatesBetweenCommands : (started []).drive.legal = true ∧ (started []).init = true ∧
    ∃ t, step ((started []).withInput (cmd 0x03000000#32)) = .next t := ⟨rfl, rfl, _, rfl⟩

theorem witness_StepsExtendTheHistory : ∃ t, step ((idle []).withInput (cmd 0x02000000#32)) = .next t := ⟨_, rfl⟩

theorem witness_StartMakesOneStartCondition : (started []).init = true ∧ (started []).drive.legal = true := ⟨rfl, rfl⟩

theorem witness_StopMakesOneStopCondition : (idle []).init = true := by rfl

theorem witness_TransfersMakeNoCondition : (between []).init = true ∧ (between []).sclLow = true := ⟨rfl, rfl⟩

theorem witness_TransfersOnAnIdleBus : (idle []).init = true ∧ (idle []).drive = ⟨false, false⟩ := ⟨rfl, rfl⟩

/-- Both lines low, where the engine releases SDA itself before it samples. -/
theorem witness_EverySampleIsADraw : (started [true]).init = true ∧ (started [true]).sdaLow = true := ⟨rfl, rfl⟩

theorem witness_ClockPulseTimes : (started [false]).init = true := by rfl

/-- The reference values too (92_eei_decisions.md D12). -/
theorem witness_MinimumDurations : (idle []).init = true ∧ (off []).init = false ∧ (∀ i, decode 0x00000000#32 ≠ .ok i) ∧
    (idle []).cfg.tBrief = 1 ∧ (idle []).cfg.tHdSta = 10 ∧ (idle []).cfg.tSuSto = 10 ∧ (idle []).cfg.tSettle = 10 ∧
    (idle []).cfg.tSuDat = 1 ∧ (idle []).cfg.tHigh = 5 ∧ (idle []).cfg.tHdDat = 1 ∧ (idle []).cfg.tTrail = 20 :=
  ⟨rfl, rfl, illegal_of_error rfl, rfl, rfl, rfl, rfl, rfl, rfl, rfl, rfl⟩

/-- The lowest bit of the second byte and the highest of the first: L1-6 gives 0x87 and 0x95, neither 0xB6. -/
theorem witness_SingleBitErrorsAreDetected :
    0x12#8 ++ 0x35#8 = (0x12#8 ++ 0x34#8) ^^^ (1#16 <<< 0) ∧ 0x92#8 ++ 0x34#8 = (0x12#8 ++ 0x34#8) ^^^ (1#16 <<< 15) ∧
    crcOf [0x12#8, 0x35#8] = 0x87#8 ∧ crcOf [0x92#8, 0x34#8] = 0x95#8 := by
  refine ⟨by decide, by decide, ?_⟩
  simp [crcOf, crcStep, crcShifts, crcShift]

/-- A transaction with two READs, from an idle bus; and CRC work before the first INIT. -/
theorem witness_FramedSequencesFrameTheBus :
    Frame.idle.run [.start, .write 0x81#8, .read .ack, .read .nack, .stop] = some .idle ∧
    Frame.idle.agrees (idle []) = true ∧ (idle []).drive.legal = true ∧
    Frame.beforeInit.run [.crcinit, .crcupd 0x12#8, .init, .start] = some .inTransaction ∧
    Frame.beforeInit.agrees (off []) = true ∧
    Frame.idle.run [.stop, .start, .read .ack, .start, .read .nack, .stop] = some .idle := by decide

theorem witness_StartThenStopRecovers : (started []).init = true := by rfl

theorem witness_AssemblerWords : 255 ≤ 255 ∧ 65535 ≤ 65535 ∧ 255 < 256 ∧ 65535 < 65536 := by decide

theorem witness_WriteCommandTransaction : (newSession (idle [false, false, false])).machine.init = true := by rfl

theorem witness_ReadCommandResultTransaction : (idle []).init = true := by rfl

theorem witness_RetriesAreBounded : (idle []).init = true ∧ (idle []).drive.legal = true ∧ 1 ≤ 1 := ⟨rfl, rfl, by decide⟩

/-- Whether a write of the flow command gave an error, and the cache after it. -/
def flowWrite (draws : List Bool) : Option (HostErr × Option (BitVec 16)) :=
  match writeCommand 0x1000#16 (newSession (idle draws)) with
  | .next (e, w) => some (e, w.cache)
  | .fault _ => none
  | .refused _ => none

/-- The cache set; the cache empty and the write acknowledged; the cache empty and the write not acknowledged. -/
theorem witness_GetFlowWritesItsCommandOnce : (newSession (idle [])).machine.init = true ∧
    (⟨idle [], some 0x1000#16⟩ : Session).cache = some 0x1000#16 ∧ (newSession (idle [])).cache ≠ some 0x1000#16 ∧
    flowWrite [false, false, false] = some (0#2, some 0x1000#16) ∧ flowWrite [false, true, false] = some (1#2, none) :=
  ⟨rfl, rfl, by decide, rfl, rfl⟩

/-- An operation in progress, none in progress, and steps that change which. -/
theorem witness_OperationsDoNotInterleave :
    ({ idle [] with operation := some 0 } : State).operation = some 0 ∧ OperationEvent.leave ≠ .enter ∧
    (idle []).operation ≠ some 0 ∧ (idle []).operation = none ∧
    (∃ t, step ((idle []).withInput (.operation 0 .enter)) = .next t ∧ t.operation ≠ (idle []).operation) ∧
    (∃ t, step ({ idle [] with operation := some 0 }.withInput (.operation 0 .leave)) = .next t ∧ t.operation ≠ some 0) :=
  ⟨rfl, by decide, by decide, rfl, ⟨_, rfl, by decide⟩, ⟨_, rfl, by decide⟩⟩

end Sys2Proof.Tests
end

section
/-! What every step keeps (spec/00_scope.md R9, R12; spec/10_state.md R23, R33; spec/40_bus_conditions.md R96): a step
extends the history of the run, and it leaves the lines as they were, in a legal drive state once INIT has executed, or
released by a reset. -/

namespace Sys2Proof.Machine

/-! ### Extending the history -/

/-- t stands at a later point of a run through s: the same parameters, more events, which lead from the drive state of
s to that of t, and more values read. -/
structure State.Extends (t s : State) : Prop where
  cfg : t.cfg = s.cfg
  traced : ∃ es, t.trace = s.trace ++ es ∧ replay es s.drive = t.drive
  readLog : s.readLog <+: t.readLog

/-- An update of neither the parameters, the trace, the lines nor the read log extends the history by nothing. -/
theorem State.Extends.of_eq {s t : State} (hc : t.cfg = s.cfg) (ht : t.trace = s.trace) (hd : t.drive = s.drive)
    (hl : t.readLog = s.readLog) : t.Extends s :=
  ⟨hc, ⟨[], by rw [ht, List.append_nil], hd.symm⟩, hl ▸ List.prefix_rfl⟩

theorem State.Extends.trans {s t u : State} (hu : u.Extends t) (ht : t.Extends s) : u.Extends s := by
  obtain ⟨hc, ⟨es, htr, hd⟩, hl⟩ := ht
  obtain ⟨hc', ⟨fs, htr', hd'⟩, hl'⟩ := hu
  refine ⟨hc'.trans hc, ⟨es ++ fs, ?_, ?_⟩, hl.trans hl'⟩
  · rw [htr', htr, List.append_assoc]
  · rw [replay_append, hd, hd']

/-- The trace clause of the invariant survives whatever extends the history. -/
theorem State.Extends.replay_trace {s t : State} (ht : t.Extends s) (hs : replay s.trace ⟨false, false⟩ = s.drive) :
    replay t.trace ⟨false, false⟩ = t.drive := by
  obtain ⟨es, htr, hd⟩ := ht.traced
  rw [htr, replay_append, hs, hd]

/-- One more value read, whatever becomes of ILLACC and the inputs. -/
theorem State.Extends.of_read {s t : State} (v : Word) (hc : t.cfg = s.cfg) (ht : t.trace = s.trace)
    (hd : t.drive = s.drive) (hl : t.readLog = s.readLog ++ [v]) : t.Extends s :=
  ⟨hc, ⟨[], by rw [ht, List.append_nil], hd.symm⟩, hl ▸ List.prefix_append _ _⟩

theorem runActions_extends (as : List Action) (s : State) : (runActions as s).Extends s := by
  obtain ⟨htr, hc, -, hl, -⟩ := performAll_frame as 0#8 s
  exact ⟨hc, htr, by rw [runActions, hl]⟩

theorem resetBlock_drive (d : ResetDraw) (s : State) : (resetBlock d s).drive = ⟨false, false⟩ := by
  rw [resetBlock_eq]
  rfl

theorem resetBlock_extends (d : ResetDraw) (s : State) : (resetBlock d s).Extends s := by
  refine ⟨by rw [resetBlock_eq],
    ⟨if d.sclFirst then [.rel .scl, .rel .sda] else [.rel .sda, .rel .scl], by rw [resetBlock_eq], ?_⟩,
    by rw [resetBlock_eq]⟩
  rw [resetBlock_drive]
  cases d.sclFirst <;> rfl

/-! ### What a command can do -/

/-- A bus command is refused while INIT = 0, else it performs its line actions (R33). -/
theorem exec_of_isBusCommand {i : Instr} (h : isBusCommand i = true) (s : State) :
    exec i s = .next (busCommand (lineActions s.cfg i) s) := by
  cases i with
  | start | stop | write | read => rfl
  | init | crcinit | crcupd | crcchk | delay => cases h

/-- Everything a completed command can do: be refused while INIT = 0 (R33), perform its line actions (R8), or change
the CRC unit alone (R137). -/
theorem exec_cases {i : Instr} {s t : State} (h : exec i s = .next t) :
    t = { s with seqerr := true } ∨
    ((isBusCommand i = true → s.init = true) ∧ t = runActions (lineActions s.cfg i) s) ∨
    ∃ c e, t = s.withCrcUnit c e := by
  by_cases hb : isBusCommand i = true
  · rw [exec_of_isBusCommand hb] at h
    cases h
    by_cases hi : s.init = true
    · exact .inr (.inl ⟨fun _ => hi, busCommand_on _ hi⟩)
    · exact .inl (busCommand_off _ (Bool.eq_false_of_not_eq_true hi))
  · cases i with
    | start | stop | write | read => exact absurd rfl hb
    | init | delay =>
      cases h
      exact .inr (.inl ⟨nofun, rfl⟩)
    | crcinit | crcupd | crcchk =>
      cases h
      exact .inr (.inr ⟨_, _, rfl⟩)

theorem exec_extends {i : Instr} {s t : State} (h : exec i s = .next t) : t.Extends s := by
  rcases exec_cases h with rfl | ⟨-, rfl⟩ | ⟨c, e, rfl⟩
  · exact .of_eq rfl rfl rfl rfl
  · exact runActions_extends _ s
  · exact .of_eq rfl rfl rfl rfl

/-- A command whose line actions are performed either leaves the lines and INIT alone, or leaves a drive state of R96
with INIT = 1. -/
theorem runActions_lineActions_drive {c : Config} {i : Instr} {s t : State} (h : isBusCommand i = true → s.init = true)
    (ht : t = runActions (lineActions c i) s) :
    (t.drive = s.drive ∧ t.init = s.init) ∨ (t.drive.legal = true ∧ t.init = true) := by
  cases i with
  | init => exact .inr (by rw [ht, lineActions, runActions_init]; exact ⟨rfl, rfl⟩)
  | start => exact .inr (by rw [ht, lineActions, runActions_start]; exact ⟨rfl, h rfl⟩)
  | stop => exact .inr (by rw [ht, lineActions, runActions_stop]; exact ⟨rfl, h rfl⟩)
  | write b => exact .inr (by rw [ht, lineActions, runActions_write]; exact ⟨rfl, h rfl⟩)
  | read a => exact .inr (by rw [ht, lineActions, runActions_read]; exact ⟨rfl, h rfl⟩)
  | crcinit | crcupd | crcchk | delay => exact .inl (ht ▸ ⟨rfl, rfl⟩)

theorem exec_drive_cases {i : Instr} {s t : State} (h : exec i s = .next t) :
    (t.drive = s.drive ∧ t.init = s.init) ∨ (t.drive.legal = true ∧ t.init = true) := by
  rcases exec_cases h with rfl | ⟨hi, ht⟩ | ⟨c, e, rfl⟩
  · exact .inl ⟨rfl, rfl⟩
  · exact runActions_lineActions_drive hi ht
  · exact .inl ⟨rfl, rfl⟩

/-! ### What a step can do to the history and the lines -/

theorem step_extends {s t : State} (h : step s = .next t) : t.Extends s := by
  cases hr : s.resetNext with
  | true =>
    obtain ⟨d, as, rest, rfl⟩ := step_reset_cases h hr
    exact ((resetBlock_extends d _).trans (runActions_extends as _)).trans (.of_eq rfl rfl rfl rfl)
  | false =>
    rcases step_noReset_cases h hr with rfl | ⟨rest, o, rfl⟩ | ⟨rest, rfl⟩ | ⟨rest, rfl⟩ | ⟨rest, v, rfl⟩ |
      ⟨rest, v, rfl⟩ | ⟨w, i, rest, -, -, he⟩
    · exact .of_eq rfl rfl rfl rfl
    · exact .of_eq rfl rfl rfl rfl
    · exact .of_eq rfl rfl rfl rfl
    · exact .of_eq rfl rfl rfl rfl
    · exact .of_read v rfl rfl rfl rfl
    · exact .of_read v rfl rfl rfl rfl
    · exact (exec_extends he).trans (.of_eq rfl rfl rfl rfl)

/-- A step leaves the lines and INIT alone, or leaves a drive state of R96 with INIT = 1 (a command), or releases both
lines (a reset). -/
theorem step_drive_cases {s t : State} (h : step s = .next t) :
    (t.drive = s.drive ∧ t.init = s.init) ∨ (t.drive.legal = true ∧ t.init = true) ∨ t.drive = ⟨false, false⟩ := by
  cases hr : s.resetNext with
  | true =>
    obtain ⟨d, as, rest, rfl⟩ := step_reset_cases h hr
    exact .inr (.inr (resetBlock_drive d _))
  | false =>
    rcases step_noReset_cases h hr with rfl | ⟨rest, o, rfl⟩ | ⟨rest, rfl⟩ | ⟨rest, rfl⟩ | ⟨rest, v, rfl⟩ |
      ⟨rest, v, rfl⟩ | ⟨w, i, rest, -, -, he⟩
    · exact .inl ⟨rfl, rfl⟩
    · exact .inl ⟨rfl, rfl⟩
    · exact .inl ⟨rfl, rfl⟩
    · exact .inl ⟨rfl, rfl⟩
    · exact .inl ⟨rfl, rfl⟩
    · exact .inl ⟨rfl, rfl⟩
    · exact (exec_drive_cases he).imp_right .inl

/-! ### The statements settled -/

/-- Settles O33: the trace clause holds because a step extends the history, the other two by the three things a step
can do to the lines. -/
theorem everyStepKeepsTheInvariant : Obligations.EveryStepKeepsTheInvariant := by
  intro s t hs h
  have traced := (step_extends h).replay_trace hs.traced
  rcases step_drive_cases h with ⟨hd, hi⟩ | ⟨hd, hi⟩ | hd
  · exact ⟨hd ▸ hs.legal, fun ht => hd.trans (hs.idleBeforeInit (hi ▸ ht)), traced⟩
  · exact ⟨hd, fun ht => absurd (hi.symm.trans ht) nofun, traced⟩
  · exact ⟨hd ▸ rfl, fun _ => hd, traced⟩

/-- Settles O35: a part of what a step does to the history. -/
theorem stepsExtendTheHistory : Obligations.StepsExtendTheHistory := by
  intro s t h
  obtain ⟨hc, ⟨es, htr, -⟩, hl⟩ := step_extends h
  exact ⟨hc, ⟨es, htr.symm⟩, hl⟩

end Sys2Proof.Machine
end

section
/-! The state elements and their writers (spec/10_state.md R22 to R40): what a word that decodes is, what each command
leaves in every element, what the register interface answers to legal and illegal accesses, and which steps change a
flag or a result. -/

/-! ### A word that decodes is its command's encoding (spec/30_encoding.md R71 to R75) -/

namespace Sys2Proof

theorem encode_selectsRow (i : Instr) : Laws.EncodeSelectsRow.Statement i := by
  cases i with
  | init => exact Laws.EncodeSelectsRow.init
  | start => exact Laws.EncodeSelectsRow.start
  | stop => exact Laws.EncodeSelectsRow.stop
  | write b => exact Laws.EncodeSelectsRow.write b
  | read a => exact Laws.EncodeSelectsRow.read a
  | crcinit => exact Laws.EncodeSelectsRow.crcinit
  | crcupd b => exact Laws.EncodeSelectsRow.crcupd b
  | crcchk e => exact Laws.EncodeSelectsRow.crcchk e
  | delay n => exact Laws.EncodeSelectsRow.delay n

theorem selects_encode {r : OpcodeRow} {i : Instr} (hr : r ∈ opcodeTable) (hm : r.mnemonic = i.mnemonic) :
    r.selects (encode i) = true := by
  have hmem : r ∈ opcodeTable.filter (fun r => r.mnemonic == i.mnemonic) := List.mem_filter.2 ⟨hr, by simp [hm]⟩
  rw [← encode_selectsRow i] at hmem
  exact (List.mem_filter.1 hmem).2

theorem mnemonic_build (m : Mnemonic) (w : Word) : (m.build w).mnemonic = m := by cases m <;> rfl

/-- A word that decodes selects a row, and its command is built from that row's mnemonic (R74). -/
theorem row_of_decode {w : Word} {i : Instr} (h : decode w = .ok i) :
    ∃ r ∈ opcodeTable, r.selects w = true ∧ i = r.mnemonic.build w := by
  cases hr : selectRow w with
  | none =>
    simp only [decode, hr] at h
    split at h <;> cases h
  | some r =>
    simp only [decode, hr, Except.ok.injEq] at h
    exact ⟨r, List.mem_of_find?_eq_some hr, List.find?_some (p := fun r : OpcodeRow => r.selects w) hr, h.symm⟩

/-- Two words that select a row are equal when they agree on the operand bits, those the row's mask leaves out. -/
theorem eq_of_selects {r : OpcodeRow} {w v : Word} (hw : r.selects w = true) (hv : r.selects v = true)
    (hl : ∀ k < 32, r.mask.getLsbD k = false → w.getLsbD k = v.getLsbD k) : w = v := by
  have hm : w &&& r.mask = v &&& r.mask := ((selects_iff r w).1 hw).trans ((selects_iff r v).1 hv).symm
  refine BitVec.eq_of_getLsbD_eq fun k hk => ?_
  cases hb : r.mask.getLsbD k with
  | false => exact hl k hk hb
  | true => simpa [hb] using congrArg (fun x => x.getLsbD k) hm

/-- How many low bits of a word are the operand of its command (R71, R72). -/
def Mnemonic.operandWidth : Mnemonic → Nat
  | .init => 0
  | .start => 0
  | .stop => 0
  | .write => 8
  | .read => 1
  | .crcinit => 0
  | .crcupd => 8
  | .crcchk => 8
  | .delay => 16

/-- Every mask covers all but the operand bits (R73). -/
theorem mask_leaves_operand_bits :
    ∀ r ∈ opcodeTable, ∀ k < 32, r.mask.getLsbD k = false → k < r.mnemonic.operandWidth := by decide

theorem getLsbD_encodeB_imm8Field (op : Byte) (w : Word) {k : Nat} (hk : k < 8) :
    (encodeB op (imm8Field w)).getLsbD k = w.getLsbD k := by
  simp only [encodeB, imm8Field, BitVec.getLsbD_append, BitVec.getLsbD_extractLsb']
  simp [hk]

/-- The command built from a word keeps the word's operand bits (R72). -/
theorem getLsbD_encode_build (m : Mnemonic) (w : Word) {k : Nat} (hk : k < m.operandWidth) :
    (encode (m.build w)).getLsbD k = w.getLsbD k := by
  cases m with
  | init | start | stop | crcinit => exact absurd hk (Nat.not_lt_zero k)
  | write | crcupd | crcchk => exact getLsbD_encodeB_imm8Field _ w hk
  | read =>
    obtain rfl : k = 0 := Nat.lt_one_iff.1 hk
    cases h : w.getLsbD 0 <;> simp only [Mnemonic.build, ackField, h] <;> decide
  | delay =>
    replace hk : k < 16 := hk
    simp only [Mnemonic.build, encode, encodeD, imm16Field, BitVec.getLsbD_append, BitVec.getLsbD_extractLsb']
    simp [hk]

theorem encode_of_decode {w : Word} {i : Instr} (h : decode w = .ok i) : encode i = w := by
  obtain ⟨r, hr, hw, rfl⟩ := row_of_decode h
  exact (eq_of_selects hw (selects_encode hr (mnemonic_build _ w).symm) fun k hk hb =>
    (getLsbD_encode_build _ w (mask_leaves_operand_bits r hr k hk hb)).symm).symm

end Sys2Proof

namespace Sys2Proof.Machine

/-! ### What each command leaves (R39) -/

theorem isBusCommand_iff (i : Instr) :
    isBusCommand i = true ↔ i = .start ∨ i = .stop ∨ (∃ b, i = .write b) ∨ (∃ a, i = .read a) := by
  cases i <;> simp [isBusCommand]

theorem isBusCommand_eq_false_iff (i : Instr) : isBusCommand i = false ↔
    i = .init ∨ i = .crcinit ∨ (∃ b, i = .crcupd b) ∨ (∃ e, i = .crcchk e) ∨ (∃ n, i = .delay n) := by
  cases i <;> simp [isBusCommand]

/-- The state a command leaves when it is not refused, as one record update for each command. -/
def State.executed (i : Instr) (s : State) : State :=
  match i with
  | .init => { s with sdaLow := false, sclLow := false, init := true, trace := s.trace ++ initTrace }
  | .start => { s with sdaLow := true, sclLow := true, trace := s.trace ++ startTrace s.cfg }
  | .stop => { s with sdaLow := false, sclLow := false, trace := s.trace ++ stopTrace s.cfg }
  | .write b =>
    { s with sdaLow := false, sclLow := true, ackerr := s.nextDraw, busIn := s.busIn.tail,
             sampleCount := s.sampleCount + 1, trace := s.trace ++ writeTrace s.cfg b s.nextDraw }
  | .read a =>
    { s with sdaLow := false, sclLow := true, rx := byteOfBits (State.draws 8 s), busIn := s.busIn.drop 8,
             sampleCount := s.sampleCount + 8, trace := s.trace ++ readTrace s.cfg a (State.draws 8 s) }
  | .crcinit => { s with crc := 0#8 }
  | .crcupd b => { s with crc := crcStep s.crc b }
  | .crcchk e => { s with crcerr := s.crc != e }
  | .delay n => { s with trace := s.trace ++ [.wait n.toNat] }

theorem exec_executed {i : Instr} {s : State} (h : isBusCommand i = true → s.init = true) :
    exec i s = .next (s.executed i) := by
  cases i with
  | init => simp only [exec, execInit, runActions_init, State.executed]
  | start => simp only [exec, execStart, busCommand_on _ (h rfl), runActions_start, State.executed]
  | stop => simp only [exec, execStop, busCommand_on _ (h rfl), runActions_stop, State.executed]
  | write b => simp only [exec, execWrite, busCommand_on _ (h rfl), runActions_write, State.executed]
  | read a => simp only [exec, execRead, busCommand_on _ (h rfl), runActions_read, State.executed]
  | crcinit | crcupd | crcchk | delay => rfl

theorem exec_refused {i : Instr} {s : State} (hb : isBusCommand i = true) (h : s.init = false) :
    exec i s = .next { s with seqerr := true } := by
  rw [exec_of_isBusCommand hb, busCommand_off _ h]

/-- Every command either is refused, a bus command while INIT = 0, or executes (R33). -/
theorem refused_or_executes (i : Instr) (s : State) :
    (isBusCommand i = true ∧ s.init = false) ∨ (isBusCommand i = true → s.init = true) := by
  cases isBusCommand i <;> cases s.init <;> simp

/-- `exec_executed` and `exec_refused`, read backwards. -/
theorem exec_inv {i : Instr} {s t : State} (h : exec i s = .next t) :
    (isBusCommand i = true ∧ s.init = false ∧ t = { s with seqerr := true }) ∨
    ((isBusCommand i = true → s.init = true) ∧ t = s.executed i) := by
  rcases refused_or_executes i s with ⟨hb, hi⟩ | hx
  · rw [exec_refused hb hi] at h
    cases h
    exact .inl ⟨hb, hi, rfl⟩
  · rw [exec_executed hx] at h
    cases h
    exact .inr ⟨hx, rfl⟩

/-- No executed command touches a sticky bit (R31 to R33), the parameters or the host's side of the state. -/
theorem executed_frame (i : Instr) (s : State) :
    (s.executed i).illcmd = s.illcmd ∧ (s.executed i).illacc = s.illacc ∧ (s.executed i).seqerr = s.seqerr ∧
    (s.executed i).cfg = s.cfg ∧ (s.executed i).inputs = s.inputs ∧ (s.executed i).readLog = s.readLog ∧
    (s.executed i).operation = s.operation := by
  cases i <;> exact ⟨rfl, rfl, rfl, rfl, rfl, rfl, rfl⟩

theorem executed_seqerr (i : Instr) (s : State) : (s.executed i).seqerr = s.seqerr := by
  obtain ⟨-, -, hq, -⟩ := executed_frame i s
  exact hq

theorem executed_init (i : Instr) (s : State) : (s.executed i).init = if i = .init then true else s.init := by
  cases i <;> rfl

theorem executed_trace (i : Instr) (s : State) : s.trace <+: (s.executed i).trace := by
  cases i with
  | crcinit | crcupd | crcchk => exact List.prefix_rfl
  | init | start | stop | write | read | delay => exact List.prefix_append _ _

/-- The five flags steer no command: set to other values before, and put back after, they make no difference (R39). -/
theorem executed_withFlags (i : Instr) (s : State) (a c il la q : Bool) :
    ((s.withFlags a c il la q).executed i).withFlags (s.executed i).ackerr (s.executed i).crcerr
      (s.executed i).illcmd (s.executed i).illacc (s.executed i).seqerr = s.executed i := by
  cases i <;> rfl

theorem exec_seqerr_set {i : Instr} {s t : State} (h : exec i s = .next t) (hs : s.seqerr = false)
    (ht : t.seqerr = true) : isBusCommand i = true ∧ s.init = false := by
  rcases exec_inv h with ⟨hb, hi, -⟩ | ⟨-, rfl⟩
  · exact ⟨hb, hi⟩
  · rw [executed_seqerr, hs] at ht
    cases ht

theorem exec_keeps_seqerr {i : Instr} {s t : State} (h : exec i s = .next t) (hs : s.seqerr = true) :
    t.seqerr = true := by
  rcases exec_inv h with ⟨-, -, rfl⟩ | ⟨-, rfl⟩
  · rfl
  · rw [executed_seqerr, hs]

theorem exec_keeps_illcmd_illacc {i : Instr} {s t : State} (h : exec i s = .next t) :
    t.illcmd = s.illcmd ∧ t.illacc = s.illacc := by
  rcases exec_inv h with ⟨-, -, rfl⟩ | ⟨-, rfl⟩
  · exact ⟨rfl, rfl⟩
  · obtain ⟨hc, ha, -⟩ := executed_frame i s
    exact ⟨hc, ha⟩

theorem exec_init_eq {i : Instr} {s t : State} (h : exec i s = .next t) :
    t.init = if i = .init then true else s.init := by
  rcases exec_inv h with ⟨hb, -, rfl⟩ | ⟨-, rfl⟩
  · rw [if_neg (by rintro rfl; cases hb)]
  · exact executed_init i s

/-- The writers of the four results (R29, R30, R37, R38). -/
theorem exec_result_writers {i : Instr} {s t : State} (h : exec i s = .next t) :
    (t.ackerr ≠ s.ackerr → ∃ b, i = .write b) ∧ (t.crcerr ≠ s.crcerr → ∃ e, i = .crcchk e) ∧
    (t.rx ≠ s.rx → ∃ a, i = .read a) ∧ (t.crc ≠ s.crc → i = .crcinit ∨ ∃ b, i = .crcupd b) := by
  rcases exec_inv h with ⟨-, -, rfl⟩ | ⟨-, rfl⟩
  · simp
  · cases i <;> simp [State.executed]

/-! ### The register interface -/

theorem getLsbD_statusBit (b : Bool) {pos : Nat} (hp : pos < 32) (k : Nat) :
    (statusBit b pos).getLsbD k = (b && decide (k = pos)) := by
  cases b with
  | false => simp [statusBit]
  | true =>
    rw [statusBit, if_pos rfl, Bool.true_and, Bool.eq_iff_iff]
    simp only [BitVec.getLsbD_shiftLeft, BitVec.getLsbD_one, Bool.and_eq_true, Bool.not_eq_true', decide_eq_true_eq,
      decide_eq_false_iff_not]
    omega

/-- Every bit of STATUS (R28, R35, R36). -/
theorem getLsbD_status (s : State) (k : Nat) : s.status.getLsbD k =
    (if k = 0 then s.ackerr else if k = 1 then s.crcerr else if k = 2 then s.illcmd else if k = 3 then s.illacc
     else if k = 4 then s.seqerr else if k = 8 then s.init else if k = 16 then s.sdaLow
     else if k = 17 then s.sclLow else false) := by
  simp only [State.status, BitVec.getLsbD_or, getLsbD_statusBit _ (show 0 < 32 by decide),
    getLsbD_statusBit _ (show 1 < 32 by decide), getLsbD_statusBit _ (show 2 < 32 by decide),
    getLsbD_statusBit _ (show 3 < 32 by decide), getLsbD_statusBit _ (show 4 < 32 by decide),
    getLsbD_statusBit _ (show 8 < 32 by decide), getLsbD_statusBit _ (show 16 < 32 by decide),
    getLsbD_statusBit _ (show 17 < 32 by decide)]
  split_ifs <;> simp_all

theorem hostRead_cmd (s : State) :
    hostRead (s.cfg.base + 0x00#32) 4 s = { s with readLog := s.readLog ++ [0x00000000#32] } := by
  simp only [hostRead, inWindow, memRead, legalShape, offset_base_add]; rfl

theorem hostWrite_readOnly {off : Word} (h : off ∈ [0x04#32, 0x08#32, 0x0C#32]) (v : Word) (s : State) :
    hostWrite (s.cfg.base + off) 4 v s = .next { s with illacc := true } := by
  simp only [hostWrite, inWindow, memWrite, legalShape, offset_base_add]
  simp only [List.mem_cons, List.not_mem_nil, or_false] at h
  rcases h with rfl | rfl | rfl <;> rfl

theorem inWindow_of_lt {c : Config} {addr : Word} (h : (addr - c.base).toNat < 16) : inWindow c addr = true :=
  decide_eq_true h

theorem legalShape_eq_false {c : Config} {addr : Word} {n : Nat}
    (h : n ≠ 4 ∨ (addr - c.base).toNat % 4 ≠ 0) : legalShape c addr n = false := by
  refine Bool.eq_false_of_not_eq_true fun hl => ?_
  simp only [legalShape, offset, Bool.and_eq_true, beq_iff_eq] at hl
  obtain ⟨hn, ho⟩ := hl
  have hmod : (addr - c.base).toNat % 4 = 0 := by
    simpa using congrArg BitVec.toNat ho
  exact h.elim (· hn) (· hmod)

/-- An illegal access inside the window sets ILLACC (R32, R52). -/
theorem hostWrite_illegal {addr : Word} {n : Nat} {s : State} (hw : (addr - s.cfg.base).toNat < 16)
    (h : n ≠ 4 ∨ (addr - s.cfg.base).toNat % 4 ≠ 0) (v : Word) :
    hostWrite addr n v s = .next { s with illacc := true } := by
  rw [hostWrite, if_pos (inWindow_of_lt hw), memWrite_illegal (legalShape_eq_false h)]
  rfl

theorem hostRead_illegal {addr : Word} {n : Nat} {s : State} (hw : (addr - s.cfg.base).toNat < 16)
    (h : n ≠ 4 ∨ (addr - s.cfg.base).toNat % 4 ≠ 0) :
    hostRead addr n s = { s with illacc := true, readLog := s.readLog ++ [0#32] } := by
  rw [hostRead, if_pos (inWindow_of_lt hw), memRead_illegal (legalShape_eq_false h)]
  rfl

theorem execute_of_decode {w : Word} {i : Instr} (h : decode w = .ok i) (s : State) : execute w s = exec i s := by
  simp only [execute, h]

theorem execute_illegal {w : Word} (h : ∀ i, decode w ≠ .ok i) (s : State) :
    execute w s = .next { s with illcmd := true } := by
  cases hd : decode w with
  | ok i => exact absurd hd (h i)
  | error e => simp only [execute, hd]; rfl

theorem tableWord_toNat (w : Word) : tableWord 32 w.toNat = w := by
  rw [tableWord, Nat.mod_eq_of_lt w.isLt, BitVec.ofNat_toNat, BitVec.setWidth_eq]

/-! ### One input, as a step -/

theorem step_read (addr : Word) (n : Nat) (s : State) :
    step (s.withInput (.read addr n)) = .next (hostRead addr n s) := rfl

theorem step_write (addr : Word) (n : Nat) (v : Word) (s : State) :
    step (s.withInput (.write addr n v)) = hostWrite addr n v s := rfl

theorem step_reset (d : ResetDraw) (s : State) : step (s.withInput (.reset d)) = .next (resetBlock d s) := rfl

/-! ### Which steps change a flag or a result -/

/-- f looks at nothing that a step can change without running a command or resetting. -/
def IgnoresHost {α : Type} (f : State → α) : Prop :=
  ∀ (s : State) (rest : List HostInput) (o : Option Nat) (c a : Bool) (log : List Word),
    f { s with inputs := rest, operation := o, illcmd := c, illacc := a, readLog := log } = f s

/-- A step that is no reset changes what ignores the host only by running the command whose word it stores to CMD. -/
theorem step_runs_command_of_ne {α : Type} (f : State → α) (hf : IgnoresHost f) {s t : State} (h : step s = .next t)
    (hr : s.resetNext = false) (hne : f t ≠ f s) :
    ∃ i rest, s.storesToCmd (encode i) ∧ exec i { s with inputs := rest } = .next t := by
  rcases step_noReset_cases h hr with rfl | ⟨rest, o, rfl⟩ | ⟨rest, rfl⟩ | ⟨rest, rfl⟩ | ⟨rest, v, rfl⟩ |
    ⟨rest, v, rfl⟩ | ⟨w, i, rest, hw, hd, he⟩
  · exact absurd rfl hne
  · exact absurd (hf s _ _ _ _ _) hne
  · exact absurd (hf s _ _ _ _ _) hne
  · exact absurd (hf s _ _ _ _ _) hne
  · exact absurd (hf s _ _ _ _ _) hne
  · exact absurd (hf s _ _ _ _ _) hne
  · exact ⟨i, rest, encode_of_decode hd ▸ hw, he⟩

/-- What a reset clears, alone or in the middle of a command (R40, R231). -/
theorem step_reset_clears {s t : State} (h : step s = .next t) (hr : s.resetNext = true) :
    t.init = false ∧ t.seqerr = false := by
  obtain ⟨d, as, rest, rfl⟩ := step_reset_cases h hr
  exact ⟨rfl, rfl⟩

theorem step_keeps_seqerr {s t : State} (h : step s = .next t) (hr : s.resetNext = false) (hs : s.seqerr = true) :
    t.seqerr = true := by
  by_cases hne : t.seqerr = s.seqerr
  · exact hne.trans hs
  · obtain ⟨i, rest, -, he⟩ := step_runs_command_of_ne State.seqerr (fun _ _ _ _ _ _ => rfl) h hr hne
    exact exec_keeps_seqerr he hs

theorem step_sets_seqerr {s t : State} (h : step s = .next t) (hs : s.seqerr = false) (ht : t.seqerr = true) :
    s.init = false ∧ ∃ i, s.storesToCmd (encode i) ∧ isBusCommand i = true := by
  cases hr : s.resetNext with
  | true => exact absurd ((step_reset_clears h hr).2.symm.trans ht) nofun
  | false =>
    obtain ⟨i, rest, hw, he⟩ := step_runs_command_of_ne State.seqerr (fun _ _ _ _ _ _ => rfl) h hr
      (by simp [hs, ht])
    obtain ⟨hb, hi⟩ := exec_seqerr_set he hs ht
    exact ⟨hi, i, hw, hb⟩

theorem step_keeps_init {s t : State} (h : step s = .next t) (hr : s.resetNext = false) (hs : s.init = true) :
    t.init = true := by
  by_cases hne : t.init = s.init
  · exact hne.trans hs
  · obtain ⟨i, rest, -, he⟩ := step_runs_command_of_ne State.init (fun _ _ _ _ _ _ => rfl) h hr hne
    rw [exec_init_eq he, hs, ite_self]

theorem step_sets_init {s t : State} (h : step s = .next t) (hs : s.init = false) (ht : t.init = true) :
    s.storesToCmd (encode .init) := by
  cases hr : s.resetNext with
  | true => exact absurd ((step_reset_clears h hr).1.symm.trans ht) nofun
  | false =>
    obtain ⟨i, rest, hw, he⟩ := step_runs_command_of_ne State.init (fun _ _ _ _ _ _ => rfl) h hr
      (by simp [hs, ht])
    have hi : i = .init := by
      by_contra hi
      rw [exec_init_eq he, if_neg hi, hs] at ht
      cases ht
    exact hi ▸ hw

theorem step_keeps_illcmd_illacc {s t : State} (h : step s = .next t) (hr : s.resetNext = false) :
    (s.illcmd = true → t.illcmd = true) ∧ (s.illacc = true → t.illacc = true) := by
  rcases step_noReset_cases h hr with rfl | ⟨rest, o, rfl⟩ | ⟨rest, rfl⟩ | ⟨rest, rfl⟩ | ⟨rest, v, rfl⟩ |
    ⟨rest, v, rfl⟩ | ⟨w, i, rest, -, -, he⟩
  · exact ⟨id, id⟩
  · exact ⟨id, id⟩
  · exact ⟨fun _ => rfl, id⟩
  · exact ⟨id, fun _ => rfl⟩
  · exact ⟨id, id⟩
  · exact ⟨id, fun _ => rfl⟩
  · obtain ⟨hc, ha⟩ := exec_keeps_illcmd_illacc he
    exact ⟨hc.trans, ha.trans⟩

/-! ### The samples of a transfer (spec/41_byte_transfer.md R116) -/

theorem samplesReleased_writeBitTrace (c : Config) (x : Bool) (d : Drive) :
    samplesReleased (writeBitTrace c x) d = true := by
  cases x <;> rfl

theorem sampledLevels_writeBitTrace (c : Config) (x : Bool) : sampledLevels (writeBitTrace c x) = [] := by
  cases x <;> rfl

theorem samplesReleased_writeTrace (c : Config) (imm8 : Byte) (b : Bool) (d : Drive) :
    samplesReleased (writeTrace c imm8 b) d = true := by
  simp only [writeTrace, samplesReleased_append, samplesReleased_writeBitTrace, Bool.true_and]
  rfl

theorem sampledLevels_writeTrace (c : Config) (imm8 : Byte) (b : Bool) :
    sampledLevels (writeTrace c imm8 b) = [b] := by
  simp only [writeTrace, sampledLevels_append, sampledLevels_writeBitTrace, List.nil_append]
  rfl

/-- READ's data bits never drive the data line, so a line released before them is released at every sample. -/
theorem samplesReleased_readBits (c : Config) (bits : List Bool) (d : Drive) (h : d.sda = false) :
    samplesReleased (bits.flatMap (readBitTrace c)) d = true := by
  induction bits generalizing d with
  | nil => rfl
  | cons b bs ih =>
    have hone : samplesReleased (readBitTrace c b) d = true := by
      simp [readBitTrace, samplesReleased, Drive.after, h]
    rw [List.flatMap_cons, samplesReleased_append, hone, Bool.true_and]
    exact ih _ h

theorem sampledLevels_readBits (c : Config) (bits : List Bool) :
    sampledLevels (bits.flatMap (readBitTrace c)) = bits := by
  induction bits with
  | nil => rfl
  | cons b bs ih =>
    rw [List.flatMap_cons, sampledLevels_append, ih]
    rfl

theorem samplesReleased_readTrace (c : Config) (a : AckPolicy) (bits : List Bool) (d : Drive) :
    samplesReleased (readTrace c a bits) d = true := by
  rw [readTrace, samplesReleased_append, samplesReleased, samplesReleased_readBits c bits _ rfl, Bool.true_and]
  · cases a <;> rfl
  · nofun

theorem sampledLevels_readTrace (c : Config) (a : AckPolicy) (bits : List Bool) :
    sampledLevels (readTrace c a bits) = bits := by
  rw [readTrace, sampledLevels_append, sampledLevels, sampledLevels_readBits]
  cases a <;> exact List.append_nil bits

/-! ### The statements settled -/

/-- Settles O16: a command sets SEQERR only where it is refused, and a step changes SEQERR only by a command or a
reset. -/
theorem sequenceErrorRule : Obligations.SequenceErrorRule := by
  refine ⟨fun s i hs hi => exec_refused ((isBusCommand_iff i).2 hi) hs, fun s i hi => ?_,
    fun s t => step_keeps_seqerr, fun s t h hs ht => ?_, fun s d => ⟨_, step_reset d s, rfl⟩⟩
  · have hb : isBusCommand i = false := (isBusCommand_eq_false_iff i).2 hi
    exact ⟨_, exec_executed (by simp [hb]), executed_seqerr i s⟩
  · obtain ⟨hi, i, hw, hb⟩ := step_sets_seqerr h hs ht
    exact ⟨hi, i, hw, (isBusCommand_iff i).1 hb⟩

/-- Settles O17: the rows are the record updates of `State.executed`. -/
theorem stateWritersTable : Obligations.StateWritersTable := by
  refine ⟨fun i s h => ⟨_, exec_executed h, ?_⟩, fun i s => exec_refused, fun w s h => execute_illegal h s⟩
  obtain ⟨hc, ha, hq, hcfg, hin, hl, ho⟩ := executed_frame i s
  refine ⟨?_, ?_, executed_init i s, ?_, ?_, ?_, ?_, hc, ha, hq, hcfg, hin, hl, ho, executed_trace i s⟩ <;>
    cases i <;> rfl

/-- Settles O18: both runs are refused, or both execute and `executed_withFlags` compares them. -/
theorem flagsDoNotSteerCommands : Obligations.FlagsDoNotSteerCommands := by
  intro i s a c il la q
  rcases refused_or_executes i s with ⟨hb, hi⟩ | hx
  · refine ⟨_, _, exec_refused hb hi, exec_refused hb hi, rfl, fun _ _ h => absurd (hi.symm.trans h) nofun, ?_⟩
    rintro e rfl
    cases hb
  · refine ⟨_, _, exec_executed hx, exec_executed hx, executed_withFlags i s a c il la q, ?_, ?_⟩
    · rintro b rfl -
      rfl
    · rintro e rfl
      rfl

/-- Settles O19: each of STATUS's eight terms has one bit at most, in its own place. -/
theorem statusLayout : Obligations.StatusLayout := getLsbD_status

/-- Settles O20, one register at a time. -/
theorem legalReadsReturnRegisters : Obligations.LegalReadsReturnRegisters := by
  intro s
  refine ⟨?_, ?_, ?_, ?_⟩
  · rw [step_read, hostRead_cmd]
  · rw [step_read, hostRead_status]
  · rw [step_read, hostRead_rxdata, rxdata_eq]
  · rw [step_read, hostRead_crcval, crcval_eq]

/-- Settles O21: the three offsets are those `hostWrite_readOnly` rejects, and no reserved bit number is one of
STATUS's eight. -/
theorem readOnlyRegistersRejectWrites : Obligations.ReadOnlyRegistersRejectWrites := by
  refine ⟨fun s v off h => hostWrite_readOnly h v s, fun s k hk => ?_⟩
  simp only [List.mem_cons, List.not_mem_nil, or_false, not_or] at hk
  rw [getLsbD_status]
  simp [hk]

/-- Settles O25: what sets each bit is the outcome of one illegal store or load; what keeps it holds of everything a
step that is no reset can do. -/
theorem stickyBitsOnlyResetClears : Obligations.StickyBitsOnlyResetClears := by
  refine ⟨fun s w h => ⟨{ s with illcmd := true }, ?_, rfl⟩,
    fun s addr n v hw h => ⟨_, _, hostWrite_illegal hw h v, rfl, step_read addr n s, ?_⟩,
    fun s v off h => ⟨_, hostWrite_readOnly h v s, rfl⟩, fun s t => step_keeps_illcmd_illacc,
    fun s d => ⟨_, step_reset d s, rfl, rfl⟩⟩
  · rw [step_write, hostWrite_base, execute_illegal h]
  · rw [hostRead_illegal hw h]

/-- Settles O26: INIT alone sets the flag, and a step changes it only by a command or a reset. -/
theorem initFlagRule : Obligations.InitFlagRule :=
  ⟨fun _ => ⟨_, exec_executed nofun, rfl⟩, fun _ _ => step_keeps_init, fun _ _ => step_sets_init,
    fun s d => ⟨_, step_reset d s, rfl⟩⟩

/-- Settles O27: each result ignores the host, so the step that changes it runs the command that writes it. -/
theorem resultsHaveOneWriter : Obligations.ResultsHaveOneWriter := by
  refine ⟨fun s t h hr => ⟨fun hne => ?_, fun hne => ?_, fun hne => ?_, fun hne => ?_⟩,
    fun s b hi => ⟨_, exec_executed fun _ => hi, rfl⟩, fun s e => ⟨_, exec_executed nofun, ?_⟩⟩
  · obtain ⟨i, rest, hw, he⟩ := step_runs_command_of_ne State.ackerr (fun _ _ _ _ _ _ => rfl) h hr hne
    obtain ⟨hack, -, -, -⟩ := exec_result_writers he
    obtain ⟨b, rfl⟩ := hack hne
    exact ⟨b, hw⟩
  · obtain ⟨i, rest, hw, he⟩ := step_runs_command_of_ne State.crcerr (fun _ _ _ _ _ _ => rfl) h hr hne
    obtain ⟨-, herr, -, -⟩ := exec_result_writers he
    obtain ⟨e, rfl⟩ := herr hne
    exact ⟨e, hw⟩
  · obtain ⟨i, rest, hw, he⟩ := step_runs_command_of_ne State.rx (fun _ _ _ _ _ _ => rfl) h hr hne
    obtain ⟨-, -, hrx, -⟩ := exec_result_writers he
    obtain ⟨a, rfl⟩ := hrx hne
    exact ⟨a, hw⟩
  · obtain ⟨i, rest, hw, he⟩ := step_runs_command_of_ne State.crc (fun _ _ _ _ _ _ => rfl) h hr hne
    obtain ⟨-, -, -, hcrc⟩ := exec_result_writers he
    rcases hcrc hne with rfl | ⟨b, rfl⟩
    · exact .inl hw
    · exact .inr ⟨b, hw⟩
  · simp only [State.executed, bne, beq_eq_decide, decide_not]

/-- Settles O41: the samples are read off the two traces. -/
theorem everySampleIsADraw : Obligations.EverySampleIsADraw := by
  refine ⟨fun s => ?_, lineLevel_false_iff, fun s b hi => ?_, fun s a hi => ?_⟩
  · cases h : s.sdaLow with
    | true => rw [sampleSda_driven s h]; rfl
    | false => rw [sampleSda_released s h]; rfl
  · exact ⟨_, writeTrace s.cfg b s.nextDraw, exec_executed fun _ => hi, rfl, samplesReleased_writeTrace _ _ _ _,
      sampledLevels_writeTrace _ _ _⟩
  · exact ⟨_, readTrace s.cfg a (State.draws 8 s), exec_executed fun _ => hi, rfl, samplesReleased_readTrace _ _ _ _,
      sampledLevels_readTrace _ _ _⟩

/-- Settles O6: a store of 4 bytes to BASE is `Execute` of its word. -/
theorem stepRunsDecodedCommand : Obligations.StepRunsDecodedCommand := by
  refine ⟨fun s w i hd => ?_, step_idle⟩
  have hstep : step (s.withInput (.write s.cfg.base 4 w)) = exec i s := by
    rw [step_write, hostWrite_base, execute_of_decode hd]
  exact ⟨hstep, by rw [State.withFetchWord, tableWord_toNat, hstep]⟩

/-- Settles O30: the values are those of `resetBlock_eq`. -/
theorem resetValues : Obligations.ResetValues :=
  ⟨fun s d => ⟨_, step_reset d s, by simp [resetBlock_eq]⟩, rfl, rfl, rfl, rfl, rfl, rfl, rfl, rfl, rfl⟩

theorem afterReset_inv (c : Config) (rx crc : Byte) : (State.afterReset c rx crc).Inv := ⟨rfl, fun _ => rfl, rfl⟩

/-- Settles O32: `State.reset` is `State.afterReset` for the reference parameters. -/
theorem invariantHoldsAtReset : Obligations.InvariantHoldsAtReset := ⟨afterReset_inv _ _ _, afterReset_inv⟩

end Sys2Proof.Machine
end

section
/-! The register interface at work (spec/20_memory.md R50 to R62): accesses outside the window and illegal ones inside
it, a register read right after a command, and the order in which successive commands act. -/

/-! ### Every command's word decodes to the command (spec/30_encoding.md R70 to R74) -/

namespace Sys2Proof

theorem selectRow_encode (i : Instr) : (selectRow (encode i)).map OpcodeRow.mnemonic = some i.mnemonic := by
  rw [selectRow, ← List.head?_filter, encode_selectsRow i]
  cases i <;> rfl

/-- The operand read back from a command's word is the command's own (R71, R72). -/
theorem build_encode (i : Instr) : i.mnemonic.build (encode i) = i := by
  cases i with
  | init | start | stop | crcinit => rfl
  | write b => exact congrArg Instr.write (imm8Field_encodeB _ b)
  | read a => exact congrArg Instr.read (ackField_encodeA _ a)
  | crcupd b => exact congrArg Instr.crcupd (imm8Field_encodeB _ b)
  | crcchk e => exact congrArg Instr.crcchk (imm8Field_encodeB _ e)
  | delay n => exact congrArg Instr.delay (imm16Field_encodeD _ n)

theorem decode_encode (i : Instr) : decode (encode i) = .ok i := by
  obtain ⟨r, hr, hm⟩ := Option.map_eq_some_iff.1 (selectRow_encode i)
  simp only [decode, hr, hm, build_encode]

end Sys2Proof

namespace Sys2Proof.Machine

/-! ### Accesses outside the window (R50) -/

theorem inWindow_eq_false {c : Config} {addr : Word} (h : 16 ≤ (addr - c.base).toNat) : inWindow c addr = false :=
  decide_eq_false (Nat.not_lt.2 h)

theorem hostRead_outside {addr : Word} {s : State} (h : inWindow s.cfg addr = false) (n : Nat) :
    hostRead addr n s = s := by
  simp [hostRead, h]

theorem hostWrite_outside {addr : Word} {s : State} (h : inWindow s.cfg addr = false) (n : Nat) (v : Word) :
    hostWrite addr n v s = .next s := by
  simp [hostWrite, h]

theorem foreignAccess_outside {addr : Word} {s : State} (h : inWindow s.cfg addr = false) :
    foreignAccess addr s = .next s := by
  simp [foreignAccess, h]

theorem step_foreignAccess (addr : Word) (s : State) :
    step (s.withInput (.foreignAccess addr)) = foreignAccess addr s := rfl

/-! ### Commands and what surrounds them -/

/-- No command is left half done: each completes at once (R57), refused or executed. -/
theorem exec_completes (i : Instr) (s : State) : ∃ t, exec i s = .next t := by
  rcases refused_or_executes i s with ⟨hb, hi⟩ | hx
  · exact ⟨_, exec_refused hb hi⟩
  · exact ⟨_, exec_executed hx⟩

/-- A command neither sees nor uses up what the host does next. -/
theorem exec_withInput {i : Instr} {s t : State} (h : exec i s = .next t) (a : HostInput) :
    exec i (s.withInput a) = .next (t.withInput a) := by
  rcases exec_inv h with ⟨hb, hi, rfl⟩ | ⟨hx, rfl⟩
  · exact exec_refused hb hi
  · have hexec : exec i (s.withInput a) = .next ((s.withInput a).executed i) := exec_executed hx
    rw [hexec]
    cases i <;> rfl

theorem exec_readLog {i : Instr} {s t : State} (h : exec i s = .next t) : t.readLog = s.readLog := by
  rcases exec_inv h with ⟨-, -, rfl⟩ | ⟨-, rfl⟩
  · rfl
  · obtain ⟨-, -, -, -, -, hl, -⟩ := executed_frame i s
    exact hl

/-- Storing a command's word to CMD runs the command (R57, R74). -/
theorem step_storesCommand (i : Instr) (s : State) :
    step (s.withInput (.write s.cfg.base 4 (encode i))) = exec i s := by
  rw [step_write, hostWrite_base, execute_of_decode (decode_encode i)]

/-- The next input after a store to CMD meets the state the command left (R58). -/
theorem step_storesCommand_withInput {i : Instr} {s u : State} (h : exec i s = .next u) (a : HostInput) :
    step ((s.withInput a).withInput (.write s.cfg.base 4 (encode i))) = .next (u.withInput a) :=
  (step_storesCommand i (s.withInput a)).trans (exec_withInput h a)

/-- The three readable registers and their values, as one rule (R51). -/
theorem hostRead_register {off v : Word} {s : State}
    (h : (off, v) ∈ [(0x04#32, s.status), (0x08#32, s.rxdata), (0x0C#32, s.crcval)]) :
    hostRead (s.cfg.base + off) 4 s = { s with readLog := s.readLog ++ [v] } := by
  simp only [List.mem_cons, List.not_mem_nil, or_false, Prod.mk.injEq] at h
  rcases h with ⟨rfl, rfl⟩ | ⟨rfl, rfl⟩ | ⟨rfl, rfl⟩
  · exact hostRead_status s
  · exact hostRead_rxdata s
  · exact hostRead_crcval s

/-! ### Command lists (R62) -/

/-- Every command list completes, and its events are added to the trace. -/
theorem runCommands_completes (is : List Instr) (s : State) :
    ∃ t es, runCommands is s = .next t ∧ t.trace = s.trace ++ es := by
  induction is generalizing s with
  | nil => exact ⟨s, [], rfl, (List.append_nil _).symm⟩
  | cons i is ih =>
    obtain ⟨u, hu⟩ := exec_completes i s
    obtain ⟨es, htr, -⟩ := (exec_extends hu).traced
    obtain ⟨t, fs, ht, htr'⟩ := ih u
    refine ⟨t, es ++ fs, ?_, by rw [htr', htr, List.append_assoc]⟩
    rw [runCommands_cons, hu, andThen_next, ht]

/-- A joined list is the first list, then the second from where the first ended. -/
theorem runCommands_append (is js : List Instr) (s : State) :
    runCommands (is ++ js) s = andThen (runCommands is s) (runCommands js) := by
  induction is generalizing s with
  | nil => rfl
  | cons i is ih =>
    obtain ⟨u, hu⟩ := exec_completes i s
    rw [List.cons_append, runCommands_cons, runCommands_cons, hu, andThen_next, andThen_next, ih]

/-! ### The statements settled -/

/-- Settles O22: the outcomes of one illegal store and one illegal load. -/
theorem illegalAccessesSetIllacc : Obligations.IllegalAccessesSetIllacc := by
  intro s addr n v hw h
  exact ⟨by rw [step_write, hostWrite_illegal hw h], by rw [step_read, hostRead_illegal hw h]⟩

/-- Settles O24: the store leaves the state of `exec` with the read still to come, which then logs the register's
value in that state. -/
theorem readAfterCommandSeesItsResult : Obligations.ReadAfterCommandSeesItsResult := by
  intro s i
  obtain ⟨u, hu⟩ := exec_completes i s
  refine ⟨u, hu, fun off v hoff => ⟨_, step_storesCommand_withInput hu _, ?_⟩⟩
  rw [step_read, ← (exec_extends hu).cfg, hostRead_register hoff, exec_readLog hu]

/-- Settles O36: the joined list runs as the two lists in turn, each adding its own events to the trace. -/
theorem commandsActInTheOrderWritten : Obligations.CommandsActInTheOrderWritten := by
  intro is js s
  obtain ⟨u, es, hu, htr⟩ := runCommands_completes is s
  obtain ⟨t, fs, ht, htr'⟩ := runCommands_completes js u
  refine ⟨u, t, es, fs, hu, ht, ?_, htr, by rw [htr', htr]⟩
  rw [runCommands_append, hu, andThen_next, ht]

/-- Settles O23: no kind of access outside the window reaches the block. -/
theorem outsideTheWindowNothingHappens : Obligations.OutsideTheWindowNothingHappens := by
  intro s addr n v h
  have hout : inWindow s.cfg addr = false := inWindow_eq_false h
  refine ⟨?_, ?_, ?_⟩
  · rw [step_write, hostWrite_outside hout]
  · rw [step_read, hostRead_outside hout]
  · rw [step_foreignAccess, foreignAccess_outside hout]

end Sys2Proof.Machine
end

section
/-! The command words (spec/30_encoding.md R70 to R79): which row a word selects and what it decodes to, which words are
illegal, what `Execute` does with a word, where a step stops, and the words and waits of assembler lines. -/

/-! ### Rows and the words that select them (R71 to R75) -/

namespace Sys2Proof

theorem row_eq_of_op :
    ∀ r ∈ opcodeTable, ∀ r' ∈ opcodeTable, opField r.pattern = opField r'.pattern → r = r' := by decide

theorem row_eq_of_mnemonic : ∀ r ∈ opcodeTable, ∀ r' ∈ opcodeTable, r.mnemonic = r'.mnemonic → r = r' := by decide

/-- At most one row matches any word, because the rows have distinct OP values and every mask covers w[31:24]
(R73). -/
theorem row_eq_of_selects {r r' : OpcodeRow} {w : Word} (hr : r ∈ opcodeTable) (hr' : r' ∈ opcodeTable)
    (h : r.selects w = true) (h' : r'.selects w = true) : r = r' :=
  row_eq_of_op r hr r' hr' ((opField_of_selects hr h).symm.trans (opField_of_selects hr' h'))

theorem decode_of_selects {r : OpcodeRow} {w : Word} (hr : r ∈ opcodeTable) (h : r.selects w = true) :
    decode w = .ok (r.mnemonic.build w) := by
  obtain ⟨r', hs⟩ : ∃ r', selectRow w = some r' :=
    Option.isSome_iff_exists.1 (List.find?_isSome.2 ⟨r, hr, h⟩)
  obtain rfl : r' = r := row_eq_of_selects (List.mem_of_find?_eq_some hs) hr
    (List.find?_some (p := fun r : OpcodeRow => r.selects w) hs) h
  simp only [decode, hs]

/-- A word decodes to a command exactly when it selects the row of the command's mnemonic and holds its operand. -/
theorem decode_eq_ok_iff {r : OpcodeRow} {i : Instr} (hr : r ∈ opcodeTable) (hm : i.mnemonic = r.mnemonic)
    (w : Word) : decode w = .ok i ↔ w &&& r.mask = r.pattern ∧ i = r.mnemonic.build w := by
  rw [← selects_iff]
  constructor
  · intro h
    obtain ⟨r', hr', hs, rfl⟩ := row_of_decode h
    obtain rfl : r' = r := row_eq_of_mnemonic r' hr' r hr ((mnemonic_build _ w).symm.trans hm)
    exact ⟨hs, rfl⟩
  · rintro ⟨hs, rfl⟩
    exact decode_of_selects hr hs

theorem exists_decode_iff (w : Word) : (∃ i, decode w = .ok i) ↔ ∃ r ∈ opcodeTable, r.selects w = true := by
  constructor
  · rintro ⟨i, h⟩
    obtain ⟨r, hr, hs, -⟩ := row_of_decode h
    exact ⟨r, hr, hs⟩
  · rintro ⟨r, hr, hs⟩
    exact ⟨_, decode_of_selects hr hs⟩

/-! ### Illegal words (R75) -/

/-- The OP values of R73. -/
theorem opcodeTable_ops : opcodeTable.map (fun r => opField r.pattern) =
    [0x01#8, 0x02#8, 0x03#8, 0x04#8, 0x05#8, 0x10#8, 0x11#8, 0x12#8, 0x20#8] := rfl

theorem opAssigned_iff (op : Byte) : opAssigned op = true ↔
    op ∈ [0x01#8, 0x02#8, 0x03#8, 0x04#8, 0x05#8, 0x10#8, 0x11#8, 0x12#8, 0x20#8] := by
  rw [← opcodeTable_ops, List.mem_map]
  simp only [opAssigned, List.any_eq_true, beq_iff_eq]

/-- R75 (a). -/
theorem decode_of_not_opAssigned {w : Word} (h : ¬ opAssigned (opField w) = true) :
    decode w = .error .unassignedOp := by
  have hn : selectRow w = none := by
    refine List.find?_eq_none.2 fun r hr hs => h ?_
    exact List.any_eq_true.2 ⟨r, hr, beq_iff_eq.2 (opField_of_selects hr hs).symm⟩
  simp only [decode, hn, if_neg h]

theorem decode_ne_ok_of_not_opAssigned {w : Word} (h : ¬ opAssigned (opField w) = true) (i : Instr) :
    decode w ≠ .ok i := by
  rw [decode_of_not_opAssigned h]
  nofun

/-- The reserved bits of a word under a mnemonic: those between OP and the operand (R71). -/
def Mnemonic.reservedBits (m : Mnemonic) (w : Word) : BitVec (24 - m.operandWidth) :=
  w.extractLsb' m.operandWidth (24 - m.operandWidth)

/-- Every mask covers exactly the bits above the operand, and every pattern has its ones in OP alone (R73). -/
theorem mask_and_pattern_bits : ∀ r ∈ opcodeTable, r.mnemonic.operandWidth ≤ 24 ∧ ∀ k < 32,
    r.mask.getLsbD k = decide (r.mnemonic.operandWidth ≤ k) ∧ (k < 24 → r.pattern.getLsbD k = false) := by decide

/-- A word of a row's OP selects the row exactly when its reserved bits are 0 (R75 (b)). -/
theorem selects_iff_reservedBits {r : OpcodeRow} {w : Word} (hr : r ∈ opcodeTable)
    (hop : opField w = opField r.pattern) : r.selects w = true ↔ r.mnemonic.reservedBits w = 0 := by
  obtain ⟨hle, hbits⟩ := mask_and_pattern_bits r hr
  have hopBit (k : Nat) (hk : k < 8) : w.getLsbD (24 + k) = r.pattern.getLsbD (24 + k) := by
    simpa [opField, hk] using congrArg (fun x => x.getLsbD k) hop
  rw [selects_iff]
  constructor
  · intro h
    refine BitVec.eq_of_getLsbD_eq fun k hk => ?_
    obtain ⟨hm, hp⟩ := hbits (r.mnemonic.operandWidth + k) (by omega)
    have hw : w.getLsbD (r.mnemonic.operandWidth + k) = r.pattern.getLsbD (r.mnemonic.operandWidth + k) := by
      simpa [hm] using congrArg (fun x => x.getLsbD (r.mnemonic.operandWidth + k)) h
    simp [Mnemonic.reservedBits, hw, hp (by omega)]
  · intro h
    refine BitVec.eq_of_getLsbD_eq fun k hk => ?_
    obtain ⟨hm, hp⟩ := hbits k hk
    rw [BitVec.getLsbD_and, hm]
    by_cases hlow : k < r.mnemonic.operandWidth
    · simp [hp (by omega), Nat.not_le.2 hlow]
    by_cases hk24 : k < 24
    · have hz : w.getLsbD k = false := by
        simpa [Mnemonic.reservedBits, Nat.add_sub_cancel' (Nat.not_lt.1 hlow),
          show k - r.mnemonic.operandWidth < 24 - r.mnemonic.operandWidth by omega]
          using congrArg (fun x => x.getLsbD (k - r.mnemonic.operandWidth)) h
      rw [hz, hp hk24, Bool.false_and]
    · obtain ⟨j, rfl⟩ := Nat.exists_eq_add_of_le (Nat.not_lt.1 hk24)
      simp [hopBit j (by omega), Nat.not_lt.1 hlow]

/-- R75 (b). -/
theorem illegal_iff_reservedBits {r : OpcodeRow} {w : Word} (hr : r ∈ opcodeTable)
    (hop : opField w = opField r.pattern) : (∀ i, decode w ≠ .ok i) ↔ r.mnemonic.reservedBits w ≠ 0 := by
  rw [← not_exists, exists_decode_iff, Ne, ← selects_iff_reservedBits hr hop]
  refine not_congr ⟨?_, fun h => ⟨r, hr, h⟩⟩
  rintro ⟨r', hr', hs⟩
  obtain rfl : r' = r := row_eq_of_op r' hr' r hr ((opField_of_selects hr' hs).symm.trans hop)
  exact hs

/-- The illegal words, format by format (R71, R75). -/
theorem illegal_iff (w : Word) : (∀ i, decode w ≠ .ok i) ↔
    opField w ∉ [0x01#8, 0x02#8, 0x03#8, 0x04#8, 0x05#8, 0x10#8, 0x11#8, 0x12#8, 0x20#8] ∨
    (opField w ∈ [0x01#8, 0x02#8, 0x03#8, 0x10#8] ∧ w.extractLsb' 0 24 ≠ 0#24) ∨
    (opField w ∈ [0x04#8, 0x11#8, 0x12#8] ∧ w.extractLsb' 8 16 ≠ 0#16) ∨
    (opField w = 0x05#8 ∧ w.extractLsb' 1 23 ≠ 0#23) ∨
    (opField w = 0x20#8 ∧ w.extractLsb' 16 8 ≠ 0#8) := by
  by_cases ha : opAssigned (opField w) = true
  · obtain ⟨r, hr, hop⟩ := List.any_eq_true.1 ha
    replace hop : opField w = opField r.pattern := (beq_iff_eq.1 hop).symm
    rw [illegal_iff_reservedBits hr hop, hop]
    simp only [opcodeTable, List.mem_cons, List.not_mem_nil, or_false] at hr
    rcases hr with rfl | rfl | rfl | rfl | rfl | rfl | rfl | rfl | rfl <;>
      simp [opField, Mnemonic.reservedBits, Mnemonic.operandWidth]
  · exact iff_of_true (decode_ne_ok_of_not_opAssigned ha) (.inl fun h => ha ((opAssigned_iff _).2 h))

/-! ### The words of assembler lines (R76) -/

theorem assemble_of_wellFormed {l : Asm} (h : l.wellFormed = true) : assemble l = some (l.expansion.map encode) :=
  if_pos h

theorem assemble_of_not_wellFormed {l : Asm} (h : ¬ l.wellFormed = true) : assemble l = none := if_neg h

/-- Appending a number that fits is an OR into the low bits. -/
theorem append_ofNat_eq_or {m : Nat} (x : BitVec m) {k n : Nat} (h : n < 2 ^ k) :
    x ++ BitVec.ofNat k n = (x ++ 0#k) ||| BitVec.ofNat (m + k) n := by
  refine BitVec.eq_of_getLsbD_eq fun i hi => ?_
  simp only [BitVec.getLsbD_or, BitVec.getLsbD_append, BitVec.getLsbD_ofNat]
  by_cases hk : i < k
  · simp [hk, hi]
  · have hbit : n.testBit i = false :=
      Nat.testBit_eq_false_of_lt (h.trans_le (Nat.pow_le_pow_right (by decide) (Nat.not_lt.1 hk)))
    simp [hk, hbit]

theorem encodeB_ofNat (op : Byte) {b : Nat} (h : b ≤ 255) :
    encodeB op (BitVec.ofNat 8 b) = encodeB op 0#8 ||| BitVec.ofNat 32 b :=
  append_ofNat_eq_or (op ++ 0#16) (Nat.lt_succ_of_le h)

theorem encodeD_ofNat (op : Byte) {n : Nat} (h : n ≤ 65535) :
    encodeD op (BitVec.ofNat 16 n) = encodeD op 0#16 ||| BitVec.ofNat 32 n :=
  append_ofNat_eq_or (op ++ 0#8) (Nat.lt_succ_of_le h)

/-! ### The delays of `DELAYL n` (R77) -/

/-- The operands of the DELAY commands of `DELAYL n`. -/
def delaylOperands (n : Nat) : List (BitVec 16) :=
  List.replicate (n / 65535) 65535#16 ++
    (if n % 65535 > 0 ∨ n / 65535 = 0 then [BitVec.ofNat 16 (n % 65535)] else [])

theorem delaylExpansion_eq (n : Nat) : delaylExpansion n = (delaylOperands n).map .delay := by
  rw [delaylExpansion, delaylOperands, List.map_append, List.map_replicate]
  split_ifs <;> rfl

theorem sum_delaylOperands (n : Nat) : ((delaylOperands n).map BitVec.toNat).sum = n := by
  have hdiv : n / 65535 * 65535 + n % 65535 = n := Nat.div_add_mod' n 65535
  have hmod : n % 65535 % 65536 = n % 65535 := by omega
  rw [delaylOperands, List.map_append, List.map_replicate, List.sum_append, List.sum_replicate]
  split_ifs with h
  · simp [hmod, hdiv]
  · have hzero : n % 65535 = 0 := by omega
    simpa [hzero] using hdiv

/-- All but the last operand are 65535. -/
theorem dropLast_delaylOperands (n : Nat) : ∀ k ∈ (delaylOperands n).dropLast, k = 65535#16 := by
  intro k hk
  rw [delaylOperands] at hk
  split_ifs at hk
  · rw [List.dropLast_concat] at hk
    exact List.eq_of_mem_replicate hk
  · rw [List.append_nil] at hk
    exact List.eq_of_mem_replicate (List.mem_of_mem_dropLast hk)

theorem delaylOperands_ne_nil (n : Nat) : delaylOperands n ≠ [] := by
  rw [delaylOperands]
  split_ifs with h
  · simp
  · simp only [List.append_nil, ne_eq, List.replicate_eq_nil_iff]
    omega

end Sys2Proof

namespace Sys2Proof.Machine

/-- A list of DELAYs only adds its waits to the trace (R153). -/
theorem runCommands_delays (ns : List (BitVec 16)) (s : State) :
    runCommands (ns.map .delay) s = .next { s with trace := s.trace ++ ns.map fun n => .wait n.toNat } := by
  induction ns generalizing s with
  | nil => simp
  | cons n ns ih =>
    have hexec : exec (.delay n) s = .next { s with trace := s.trace ++ [.wait n.toNat] } := exec_executed nofun
    rw [List.map_cons, runCommands_cons, hexec, andThen_next, ih]
    simp

theorem minDuration_waits (ns : List (BitVec 16)) :
    minDuration (ns.map fun n => .wait n.toNat) = (ns.map BitVec.toNat).sum := by
  induction ns with
  | nil => rfl
  | cons n ns ih => rw [List.map_cons, minDuration, ih, List.map_cons, List.sum_cons]

/-! ### `Execute` and where a step stops (R74, R200, R213) -/

theorem executed_sticky (i : Instr) (s : State) : (s.executed i).illcmd = s.illcmd ∧
    (s.executed i).illacc = s.illacc ∧ (s.executed i).seqerr = s.seqerr := by
  obtain ⟨hc, ha, -⟩ := executed_frame i s
  exact ⟨hc, ha, executed_seqerr i s⟩

theorem step_storesIllegal {w : Word} (h : ∀ i, decode w ≠ .ok i) (s : State) :
    step (s.withInput (.write s.cfg.base 4 w)) = .next { s with illcmd := true } := by
  rw [step_write, hostWrite_base, execute_illegal h]

theorem step_storesWord {w : Word} {i : Instr} (h : decode w = .ok i) (s : State) :
    step (s.withInput (.write s.cfg.base 4 w)) = exec i s := by
  rw [← encode_of_decode h, step_storesCommand]

theorem execute_completes (w : Word) (s : State) : ∃ t, execute w s = .next t := by
  cases h : decode w with
  | ok i => rw [execute_of_decode h]; exact exec_completes i s
  | error e => exact ⟨_, execute_illegal (by simp [h]) s⟩

theorem hostWrite_completes (addr : Word) (n : Nat) (v : Word) (s : State) : ∃ t, hostWrite addr n v s = .next t := by
  simp only [hostWrite, memWrite]
  split_ifs
  · exact execute_completes v s
  · exact ⟨_, rfl⟩
  · exact ⟨_, rfl⟩
  · exact ⟨_, rfl⟩

theorem foreignAccess_inside {addr : Word} {s : State} (h : inWindow s.cfg addr = true) :
    foreignAccess addr s = .refused .secondHostAgent := if_pos h

theorem foreignAccess_cases (addr : Word) (s : State) : (∃ t, foreignAccess addr s = .next t) ∨
    (addr - s.cfg.base).toNat < 16 ∧ foreignAccess addr s = .refused .secondHostAgent := by
  cases h : inWindow s.cfg addr with
  | true => exact .inr ⟨of_decide_eq_true h, foreignAccess_inside h⟩
  | false => exact .inl ⟨s, foreignAccess_outside h⟩

theorem ifInProgress_cases (id : Nat) {s : State} {o : Host.Outcome State Fault Refusal} (ho : ∃ t, o = .next t) :
    (∃ t, ifInProgress id s o = .next t) ∨
      s.operation ≠ some id ∧ ifInProgress id s o = .refused .interleavedOperations := by
  by_cases h : s.operation = some id
  · exact .inl (by rwa [ifInProgress_some o h])
  · exact .inr ⟨h, ifInProgress_other o h⟩

/-- An operation's event completes, or it is out of turn and is refused (R213). -/
theorem performOperation_cases (id : Nat) (e : OperationEvent) (s : State) :
    (∃ t, performOperation id e s = .next t) ∨
      (if e = .enter then s.operation ≠ none else s.operation ≠ some id) ∧
        performOperation id e s = .refused .interleavedOperations := by
  cases e with
  | enter =>
    by_cases h : s.operation = none
    · exact .inl ⟨_, if_pos h⟩
    · exact .inr ⟨h, if_neg h⟩
  | read a n => exact ifInProgress_cases id ⟨_, rfl⟩
  | write a n v => exact ifInProgress_cases id (hostWrite_completes a n v s)
  | cutWrite a n v k d => exact ifInProgress_cases id ⟨_, rfl⟩
  | leave => exact ifInProgress_cases id ⟨_, rfl⟩

/-- Where a step can stop: at an access of a second host agent or at an operation's event out of turn. -/
theorem step_completes_or_refuses (s : State) : (∃ t, step s = .next t) ∨
    (∃ a rest, s.inputs = .foreignAccess a :: rest ∧ (a - s.cfg.base).toNat < 16 ∧
      step s = .refused .secondHostAgent) ∨
    (∃ id e rest, s.inputs = .operation id e :: rest ∧
      (if e = .enter then s.operation ≠ none else s.operation ≠ some id) ∧
      step s = .refused .interleavedOperations) := by
  rcases step_cases s with ⟨-, h⟩ | ⟨hin, u, rfl, h⟩
  · exact .inl ⟨s, h⟩
  rw [h]
  cases hin with
  | read a n => exact .inl ⟨_, rfl⟩
  | write a n v => exact .inl (hostWrite_completes a n v u)
  | foreignAccess a => exact (foreignAccess_cases a u).imp_right fun h => .inl ⟨a, u.inputs, rfl, h⟩
  | reset d => exact .inl ⟨_, rfl⟩
  | cutWrite a n v k d => exact .inl ⟨_, rfl⟩
  | operation id e => exact (performOperation_cases id e u).imp_right fun h => .inr ⟨id, e, u.inputs, rfl, h⟩

/-! ### The statements settled -/

/-- Settles O1: the row of a command's word is its mnemonic's, and the operand is read back. -/
theorem decodeEncodeRoundTrip : Obligations.DecodeEncodeRoundTrip := fun i => ⟨wellFormed_always i, decode_encode i⟩

/-- Settles O2: the word and the encoding select one row and agree on the operand bits. -/
theorem decodedWordIsTheEncoding : Obligations.DecodedWordIsTheEncoding := fun _ _ => encode_of_decode

/-- Settles O3: `decode_eq_ok_iff` at each of the nine rows. -/
theorem opcodeMap : Obligations.OpcodeMap := by
  intro w
  have row (m : Mnemonic) (p k : Word) (hr : ⟨m, p, k⟩ ∈ opcodeTable) (i : Instr) (hm : i.mnemonic = m) :
      decode w = .ok i ↔ w &&& k = p ∧ i = m.build w := decode_eq_ok_iff hr hm w
  refine ⟨?_, ?_, ?_, fun b => ?_, fun a => ?_, ?_, fun b => ?_, fun e => ?_, fun n => ?_, fun h => ?_,
    fun r hr r' hr' => row_eq_of_selects hr hr'⟩
  · exact (row .init _ _ (by decide) _ rfl).trans (and_iff_left rfl)
  · exact (row .start _ _ (by decide) _ rfl).trans (and_iff_left rfl)
  · exact (row .stop _ _ (by decide) _ rfl).trans (and_iff_left rfl)
  · exact (row .write _ _ (by decide) _ rfl).trans (and_congr_right' (.of_eq (Instr.write.injEq _ _)))
  · exact (row .read _ _ (by decide) _ rfl).trans (and_congr_right' (.of_eq (Instr.read.injEq _ _)))
  · exact (row .crcinit _ _ (by decide) _ rfl).trans (and_iff_left rfl)
  · exact (row .crcupd _ _ (by decide) _ rfl).trans (and_congr_right' (.of_eq (Instr.crcupd.injEq _ _)))
  · exact (row .crcchk _ _ (by decide) _ rfl).trans (and_congr_right' (.of_eq (Instr.crcchk.injEq _ _)))
  · exact (row .delay _ _ (by decide) _ rfl).trans (and_congr_right' (.of_eq (Instr.delay.injEq _ _)))
  · exact decode_of_not_opAssigned fun ha => h ((opAssigned_iff _).1 ha)

/-- Settles O4: the set of illegal words, and the outcome of storing one. -/
theorem illegalWordsSetOnlyIllcmd : Obligations.IllegalWordsSetOnlyIllcmd := fun w s =>
  ⟨illegal_iff w, fun h => step_storesIllegal h s, decode_ne_ok_of_not_opAssigned (by decide),
    decode_ne_ok_of_not_opAssigned (by decide)⟩

/-- Settles O7: a store to CMD is `Execute`, whose command is refused or leaves `State.executed`. -/
theorem executeChecksThenRuns : Obligations.ExecuteChecksThenRuns := by
  refine fun s w => ⟨fun h => step_storesIllegal h s, fun i hd hb hi => ?_, fun i hd h => ?_⟩
  · rw [step_storesWord hd, exec_refused ((isBusCommand_iff i).2 hb) hi]
  · have hexec : exec i s = .next (s.executed i) :=
      exec_executed fun hb => h.resolve_left (not_not.2 ((isBusCommand_iff i).1 hb))
    exact ⟨_, hexec, (step_storesWord hd s).trans hexec, executed_sticky i s⟩

/-- Settles O8: every command completes, so a step stops only where an input is refused before it acts. -/
theorem stepsStopOnlyOnSharedUse : Obligations.StepsStopOnlyOnSharedUse :=
  ⟨exec_completes, step_completes_or_refuses, fun _ _ h => foreignAccess_inside (inWindow_of_lt h)⟩

/-- Settles O52: an operand in range is ORed into its command's base word, and one out of range makes the line ill
formed. -/
theorem assemblerWords : Obligations.AssemblerWords := by
  refine ⟨rfl, rfl, rfl, rfl, rfl, rfl, fun b hb => ⟨?_, ?_, ?_⟩, fun n hn => ?_, fun b hb => ⟨?_, ?_, ?_⟩,
    fun n hn => ?_⟩
  · exact (assemble_of_wellFormed (l := .write b) (decide_eq_true hb)).trans
      (congrArg (some [·]) (encodeB_ofNat 0x04#8 hb))
  · exact (assemble_of_wellFormed (l := .crcupd b) (decide_eq_true hb)).trans
      (congrArg (some [·]) (encodeB_ofNat 0x11#8 hb))
  · exact (assemble_of_wellFormed (l := .crcchk b) (decide_eq_true hb)).trans
      (congrArg (some [·]) (encodeB_ofNat 0x12#8 hb))
  · exact (assemble_of_wellFormed (l := .delay n) (decide_eq_true hn)).trans
      (congrArg (some [·]) (encodeD_ofNat 0x20#8 hn))
  · exact assemble_of_not_wellFormed fun h => absurd (of_decide_eq_true h) (Nat.not_le.2 hb)
  · exact assemble_of_not_wellFormed fun h => absurd (of_decide_eq_true h) (Nat.not_le.2 hb)
  · exact assemble_of_not_wellFormed fun h => absurd (of_decide_eq_true h) (Nat.not_le.2 hb)
  · exact assemble_of_not_wellFormed fun h => absurd (of_decide_eq_true h) (Nat.not_le.2 hn)

/-- Settles O53: the events are the waits of `delaylOperands n`. -/
theorem longDelayWaitsItsSum : Obligations.LongDelayWaitsItsSum := by
  intro n s
  refine ⟨_, (delaylOperands n).map fun k => .wait k.toNat, ?_, rfl, ?_, fun e he => ?_, fun e he => ?_, ?_⟩
  · rw [delaylExpansion_eq, runCommands_delays]
  · rw [minDuration_waits, sum_delaylOperands]
  · obtain ⟨k, -, rfl⟩ := List.mem_map.1 he
    exact ⟨k.toNat, Nat.le_of_lt_succ k.isLt, rfl⟩
  · rw [← List.map_dropLast] at he
    obtain ⟨k, hk, rfl⟩ := List.mem_map.1 he
    rw [dropLast_delaylOperands n k hk]
    rfl
  · exact fun h => delaylOperands_ne_nil n (List.map_eq_nil_iff.1 h)

/-- Settles O5 by running the decoder on the six words. -/
theorem testVectorWordsDecode : Obligations.TestVectorWordsDecode := ⟨rfl, rfl, rfl, rfl, rfl, rfl⟩

end Sys2Proof.Machine
end

section
/-! INIT, START and STOP (spec/40_bus_conditions.md R90 to R96): what each leaves, the start and stop conditions of its
trace, and the drive states between commands. -/

namespace Sys2Proof.Machine

/-! ### The conditions of the three traces (R90, R93 to R95) -/

theorem startConditions_initTrace (d : Drive) : startConditions initTrace d = 0 := rfl

/-- INIT releases the data line first, which is a stop condition only from SDA low with SCL released. -/
theorem stopConditions_initTrace (d : Drive) :
    stopConditions initTrace d = if d = ⟨true, false⟩ then 1 else 0 := by
  obtain ⟨sda, scl⟩ := d
  cases sda <;> cases scl <;> rfl

/-- START's two releases make every drive state idle before it pulls the data line low. -/
theorem startConditions_startTrace (c : Config) (d : Drive) : startConditions (startTrace c) d = 1 := rfl

/-- START too releases the data line first, and never again. -/
theorem stopConditions_startTrace (c : Config) (d : Drive) :
    stopConditions (startTrace c) d = if d = ⟨true, false⟩ then 1 else 0 := by
  obtain ⟨sda, scl⟩ := d
  cases sda <;> cases scl <;> rfl

/-- STOP's trace before its last release of the data line (R92). -/
def stopSetupTrace (c : Config) : List Event :=
  [.low .scl, .wait c.tBrief, .low .sda, .wait c.tBrief, .rel .scl, .wait c.tSuSto]

theorem stopTrace_eq (c : Config) : stopTrace c = stopSetupTrace c ++ [.rel .sda, .wait c.tSettle] := rfl

/-- Whatever the lines were, STOP brings them to SDA low with SCL released. -/
theorem replay_stopSetupTrace (c : Config) (d : Drive) : replay (stopSetupTrace c) d = ⟨true, false⟩ := rfl

theorem stopConditions_stopSetupTrace (c : Config) (d : Drive) : stopConditions (stopSetupTrace c) d = 0 := rfl

/-- STOP's one stop condition is its last release of the data line. -/
theorem stopConditions_stopTrace (c : Config) (d : Drive) : stopConditions (stopTrace c) d = 1 := by
  rw [stopTrace_eq, stopConditions_append, stopConditions_stopSetupTrace, replay_stopSetupTrace]
  rfl

/-- STOP pulls the data line low only after the clock line. -/
theorem startConditions_stopTrace (c : Config) (d : Drive) : startConditions (stopTrace c) d = 0 := by
  obtain ⟨sda, scl⟩ := d
  cases sda <;> rfl

/-! ### The drive states of R96 -/

theorem Drive.legal_iff (d : Drive) :
    d.legal = true ↔ d = ⟨false, false⟩ ∨ d = ⟨true, true⟩ ∨ d = ⟨false, true⟩ := by
  obtain ⟨sda, scl⟩ := d
  cases sda <;> cases scl <;> decide

theorem Drive.ne_of_legal {d : Drive} (h : d.legal = true) : d ≠ ⟨true, false⟩ := by
  rintro rfl
  cases h

theorem step_keeps_legal {s t : State} (hs : s.drive.legal = true) (h : step s = .next t) :
    t.drive.legal = true := by
  rcases step_drive_cases h with ⟨hd, -⟩ | ⟨hd, -⟩ | hd
  · rw [hd, hs]
  · exact hd
  · rw [hd]; rfl

/-! ### Command lists that are not refused -/

theorem runCommands_of_init (is : List Instr) {s : State} (h : s.init = true) :
    runCommands is s = .next (is.foldl (fun u i => u.executed i) s) := by
  induction is generalizing s with
  | nil => rfl
  | cons i is ih =>
    rw [runCommands_cons, exec_executed fun _ => h, andThen_next, ih (by rw [executed_init, h, ite_self])]
    rfl

/-- After an INIT no command is refused (R33). -/
theorem runCommands_init_cons (is : List Instr) (s : State) :
    runCommands (.init :: is) s = .next (is.foldl (fun u i => u.executed i) (s.executed .init)) := by
  rw [runCommands_cons, exec_executed (i := .init) nofun, andThen_next, runCommands_of_init is rfl]

/-- STATUS with no condition recorded and INIT = 1: bit 8 and the drive states (R28). -/
theorem status_of_no_condition {s : State} (d : Drive) (hc : ∀ c, s.condition c = false) (hi : s.init = true)
    (hd : s.drive = d) : s.status = statusBit true 8 ||| statusBit d.sda 16 ||| statusBit d.scl 17 := by
  obtain ⟨hack, hcrc, hcmd, hacc, hseq⟩ : s.ackerr = false ∧ s.crcerr = false ∧ s.illcmd = false ∧
      s.illacc = false ∧ s.seqerr = false :=
    ⟨hc .acknowledgeError, hc .checksumError, hc .illegalCommand, hc .illegalAccess, hc .sequenceError⟩
  simp [State.status, statusBit, hack, hcrc, hcmd, hacc, hseq, hi, ← hd]

theorem status_idle {s : State} (hc : ∀ c, s.condition c = false) (hi : s.init = true)
    (hd : s.drive = ⟨false, false⟩) : s.status = 0x00000100#32 :=
  (status_of_no_condition _ hc hi hd).trans (by decide)

theorem status_started {s : State} (hc : ∀ c, s.condition c = false) (hi : s.init = true)
    (hd : s.drive = ⟨true, true⟩) : s.status = 0x00030100#32 :=
  (status_of_no_condition _ hc hi hd).trans (by decide)

/-! ### The statements settled -/

/-- Settles O34: the step clause by the three things a step can do to the lines, the others by what each command and a
reset leaves. -/
theorem driveStatesBetweenCommands : Obligations.DriveStatesBetweenCommands := by
  refine ⟨fun s t => step_keeps_legal, Drive.legal_iff, fun s => ⟨_, exec_executed nofun, rfl⟩,
    fun s hi => ⟨_, exec_executed fun _ => hi, rfl⟩, fun s hi => ⟨_, exec_executed fun _ => hi, rfl⟩,
    fun s b hi => ⟨_, exec_executed fun _ => hi, rfl⟩, fun s a hi => ⟨_, exec_executed fun _ => hi, rfl⟩,
    fun s d => ⟨_, step_reset d s, resetBlock_drive d s⟩, fun s => ?_⟩
  exact ⟨_, initTrace, exec_executed nofun, rfl, startConditions_initTrace _, stopConditions_initTrace _⟩

/-- Settles O37: a START makes its start condition from every drive state, and a legal one keeps its first release from
being a stop condition. -/
theorem startMakesOneStartCondition : Obligations.StartMakesOneStartCondition := by
  intro s hi hd
  have hstop : stopConditions (startTrace s.cfg) s.drive = 0 := by
    rw [stopConditions_startTrace, if_neg (Drive.ne_of_legal hd)]
  exact ⟨_, startTrace s.cfg, exec_executed fun _ => hi, rfl, startConditions_startTrace _ _, hstop, rfl⟩

/-- Settles O38: the trace is cut before its last release, which alone is a stop condition. -/
theorem stopMakesOneStopCondition : Obligations.StopMakesOneStopCondition := fun s hi =>
  ⟨_, stopTrace s.cfg, stopSetupTrace s.cfg, exec_executed fun _ => hi, rfl, startConditions_stopTrace _ _,
    stopConditions_stopTrace _ _, rfl, stopTrace_eq _, stopConditions_stopSetupTrace _ _⟩

/-- Settles O9: the state is INIT's row of `State.executed`, and R96 leaves out the one drive state from which its
trace holds a stop condition. -/
theorem initReleasesBothLines : Obligations.InitReleasesBothLines := by
  refine ⟨fun s => exec_executed nofun, decode_encode .init, fun d hd => ⟨startConditions_initTrace d, ?_⟩,
    fun c rx crc => ⟨_, exec_executed nofun, status_idle (fun k => by cases k <;> rfl) rfl rfl⟩⟩
  exact (stopConditions_initTrace d).trans (if_neg (Drive.ne_of_legal hd))

/-- Settles O10: START is refused or leaves its row of `State.executed`. -/
theorem startResult : Obligations.StartResult :=
  ⟨fun _ hi => exec_executed fun _ => hi, fun _ => exec_refused rfl, decode_encode .start,
    fun _ _ _ => ⟨_, runCommands_init_cons _ _, status_started (fun k => by cases k <;> rfl) rfl rfl⟩⟩

/-- Settles O11: STOP is refused or leaves its row of `State.executed`. -/
theorem stopResult : Obligations.StopResult :=
  ⟨fun _ hi => exec_executed fun _ => hi, fun _ => exec_refused rfl, decode_encode .stop,
    fun _ _ _ => ⟨_, runCommands_init_cons _ _, status_idle (fun k => by cases k <;> rfl) rfl rfl⟩⟩

end Sys2Proof.Machine
end

section
/-! WRITE and READ (spec/41_byte_transfer.md R110 to R119): the state and byte each leaves, when its trace moves the
data line, and the least times of its clock pulses. -/

namespace Sys2Proof.Machine

/-! ### The traces as data bits and a ninth pulse (R111, R112) -/

/-- WRITE's ninth pulse, with the acknowledge sampled at b (R111). -/
def writeAckTrace (c : Config) (b : Bool) : List Event :=
  [.rel .sda, .rel .scl, .wait c.tSuDat, .samp b, .low .scl, .wait c.tTrail]

/-- READ's ninth pulse: the engine answers with the acknowledge (R112). -/
def readAckTrace (c : Config) (a : AckPolicy) : List Event :=
  [if a = .ack then .low .sda else .rel .sda, .wait c.tSuDat, .rel .scl, .wait c.tHigh, .low .scl, .rel .sda,
    .wait c.tTrail]

theorem writeTrace_eq (c : Config) (imm8 : Byte) (b : Bool) :
    writeTrace c imm8 b = (bitsDown.map imm8.getLsbD).flatMap (writeBitTrace c) ++ writeAckTrace c b := by
  simp [writeTrace, writeAckTrace, bitsDown]

theorem readTrace_eq (c : Config) (a : AckPolicy) (bits : List Bool) :
    readTrace c a bits = .rel .sda :: (bits.flatMap (readBitTrace c) ++ readAckTrace c a) := rfl

theorem length_writeTrace (c : Config) (imm8 : Byte) (b : Bool) : (writeTrace c imm8 b).length = 54 := rfl

theorem length_readBits (c : Config) (bits : List Bool) :
    (bits.flatMap (readBitTrace c)).length = 5 * bits.length := by
  simp [List.length_flatMap, readBitTrace, Nat.mul_comm]

theorem length_readTrace (c : Config) (a : AckPolicy) {bits : List Bool} (h : bits.length = 8) :
    (readTrace c a bits).length = 48 := by
  rw [readTrace_eq, List.length_cons, List.length_append, length_readBits, h]
  rfl

/-! ### The byte READ assembles (R54, R112) -/

theorem byteOfBits_concat (bits : List Bool) (b : Bool) :
    byteOfBits (bits ++ [b]) = byteOfBits bits <<< 1 ||| (BitVec.ofBool b).zeroExtend 8 := by
  rw [byteOfBits, List.foldl_append]
  rfl

/-- Bit k is the bit given k places before the last. -/
theorem getLsbD_byteOfBits (bits : List Bool) {k : Nat} (hk : k < 8) :
    (byteOfBits bits).getLsbD k = bits.reverse.getD k false := by
  induction bits using List.reverseRecOn generalizing k with
  | nil => simp [byteOfBits]
  | append_singleton bits b ih =>
    rw [byteOfBits_concat, List.reverse_concat]
    cases k with
    | zero => simp
    | succ k =>
      have hk' : k < 8 := by omega
      simpa [hk, hk'] using ih hk'

theorem getElem?_eq_getLsbD_byteOfBits {bits : List Bool} (h : bits.length = 8) {k : Nat} (hk : k < 8) :
    bits[k]? = some ((byteOfBits bits).getLsbD (7 - k)) := by
  rw [getLsbD_byteOfBits bits (by omega), List.getD_eq_getElem _ _ (by rw [List.length_reverse]; omega),
    List.getElem_reverse, ← List.getElem?_eq_getElem]
  congr 1
  omega

/-! ### When the data line moves (R93, R114) -/

/-- A start or stop condition is a change of the data line while the clock line is released. -/
theorem sda_moves_of_condition {d : Drive} {e : Event}
    (h : isStartCondition d e = true ∨ isStopCondition d e = true) :
    ((d.after e).sda == d.sda || d.scl) = false := by
  simp only [isStartCondition, isStopCondition, Bool.and_eq_true, beq_iff_eq, Bool.not_eq_true'] at h
  obtain ⟨⟨rfl, hsda⟩, hscl⟩ | ⟨⟨rfl, hsda⟩, hscl⟩ := h
  · simp [Drive.after, hsda, hscl]
  · simp [Drive.after, hsda, hscl]

theorem no_conditions_of_sdaMovesWhileClockLow (es : List Event) (d : Drive)
    (h : sdaMovesWhileClockLow es d = true) : startConditions es d = 0 ∧ stopConditions es d = 0 := by
  induction es generalizing d with
  | nil => exact ⟨rfl, rfl⟩
  | cons e es ih =>
    obtain ⟨he, hes⟩ := (Bool.and_eq_true _ _).mp h
    obtain ⟨hstart, hstop⟩ := ih _ hes
    have hnone : ¬ (isStartCondition d e = true ∨ isStopCondition d e = true) := fun hc =>
      absurd ((sda_moves_of_condition hc).symm.trans he) nofun
    rw [not_or] at hnone
    obtain ⟨hs, hp⟩ := hnone
    simp [startConditions, stopConditions, hs, hp, hstart, hstop]

/-- From a low clock, one WRITE data bit moves the data line before its pulse only. -/
theorem sdaMovesWhileClockLow_writeBitTrace (c : Config) (x : Bool) {d : Drive} (h : d.scl = true) :
    sdaMovesWhileClockLow (writeBitTrace c x) d = true := by
  cases x <;> simp [writeBitTrace, sdaMovesWhileClockLow, Drive.after, h]

theorem replay_writeBitTrace (c : Config) (x : Bool) (d : Drive) : replay (writeBitTrace c x) d = ⟨!x, true⟩ := by
  cases x <;> rfl

/-- The rest of a WRITE, from any data bit on. -/
theorem sdaMovesWhileClockLow_writeBits (c : Config) (bits : List Bool) (b : Bool) {d : Drive} (h : d.scl = true) :
    sdaMovesWhileClockLow (bits.flatMap (writeBitTrace c) ++ writeAckTrace c b) d = true := by
  induction bits generalizing d with
  | nil => simp [writeAckTrace, sdaMovesWhileClockLow, Drive.after, h]
  | cons x xs ih =>
    rw [List.flatMap_cons, List.append_assoc, sdaMovesWhileClockLow_append, sdaMovesWhileClockLow_writeBitTrace c x h,
      Bool.true_and]
    exact ih (by rw [replay_writeBitTrace])

theorem sdaMovesWhileClockLow_writeTrace (c : Config) (imm8 : Byte) (b : Bool) {d : Drive} (h : d.scl = true) :
    sdaMovesWhileClockLow (writeTrace c imm8 b) d = true := by
  rw [writeTrace_eq, sdaMovesWhileClockLow_writeBits c _ b h]

/-- READ's data bits leave the data line as it is. -/
theorem sdaMovesWhileClockLow_readBits (c : Config) (bits : List Bool) (d : Drive) :
    sdaMovesWhileClockLow (bits.flatMap (readBitTrace c)) d = true := by
  induction bits generalizing d with
  | nil => rfl
  | cons b bs ih =>
    rw [List.flatMap_cons, sdaMovesWhileClockLow_append, ih, Bool.and_true]
    simp [readBitTrace, sdaMovesWhileClockLow, Drive.after]

theorem replay_readBits_of_scl (c : Config) (bits : List Bool) {d : Drive} (h : d.scl = true) :
    replay (bits.flatMap (readBitTrace c)) d = d := by
  obtain ⟨sda, scl⟩ := d
  subst h
  induction bits with
  | nil => rfl
  | cons b bs ih => rw [List.flatMap_cons, replay_append]; exact ih

/-- The first data bit leaves the clock low and the later ones keep it so. -/
theorem replay_readBits (c : Config) {bits : List Bool} (h : bits ≠ []) (d : Drive) :
    replay (bits.flatMap (readBitTrace c)) d = ⟨d.sda, true⟩ := by
  obtain ⟨b, bs, rfl⟩ := List.exists_cons_of_ne_nil h
  rw [List.flatMap_cons, replay_append]
  exact replay_readBits_of_scl c bs rfl

theorem sdaMovesWhileClockLow_readAckTrace (c : Config) (a : AckPolicy) {d : Drive} (h : d.scl = true) :
    sdaMovesWhileClockLow (readAckTrace c a) d = true := by
  cases a <;> simp [readAckTrace, sdaMovesWhileClockLow, Drive.after, h]

/-- READ releases the data line first, which moves it from no drive state of R96 with the clock released; its
acknowledge comes with the clock low. -/
theorem sdaMovesWhileClockLow_readTrace (c : Config) (a : AckPolicy) {bits : List Bool} (hb : bits ≠ []) {d : Drive}
    (hd : d.legal = true) : sdaMovesWhileClockLow (readTrace c a bits) d = true := by
  have hfirst : ((d.after (.rel .sda)).sda == d.sda || d.scl) = true := by
    rcases (Drive.legal_iff d).1 hd with rfl | rfl | rfl <;> rfl
  rw [readTrace_eq, sdaMovesWhileClockLow, hfirst, sdaMovesWhileClockLow_append, sdaMovesWhileClockLow_readBits,
    replay_readBits c hb, sdaMovesWhileClockLow_readAckTrace c a rfl]
  rfl

theorem draws_eight_ne_nil (s : State) : State.draws 8 s ≠ [] := nofun

theorem Drive.legal_of_scl {d : Drive} (h : d.scl = true) : d.legal = true := by simp [Drive.legal, h]

/-! ### WRITE on an idle bus (R118) -/

/-- A data bit that finds both lines released pulls the data line down under a released clock when it is 0. -/
theorem conditions_writeBitTrace_idle (c : Config) (x : Bool) :
    startConditions (writeBitTrace c x) ⟨false, false⟩ = (if x then 0 else 1) ∧
    stopConditions (writeBitTrace c x) ⟨false, false⟩ = 0 := by
  cases x <;> exact ⟨rfl, rfl⟩

/-- Only the first data bit finds the clock released; after it the clock is low. -/
theorem conditions_writeTrace_idle (c : Config) (imm8 : Byte) (b : Bool) :
    startConditions (writeTrace c imm8 b) ⟨false, false⟩ = (if imm8.getLsbD 7 then 0 else 1) ∧
    stopConditions (writeTrace c imm8 b) ⟨false, false⟩ = 0 := by
  obtain ⟨hstart, hstop⟩ := no_conditions_of_sdaMovesWhileClockLow _ _ (sdaMovesWhileClockLow_writeBits c
    ([6, 5, 4, 3, 2, 1, 0].map imm8.getLsbD) b (d := ⟨!imm8.getLsbD 7, true⟩) rfl)
  obtain ⟨hstart7, hstop7⟩ := conditions_writeBitTrace_idle c (imm8.getLsbD 7)
  rw [writeTrace_eq, bitsDown, List.map_cons, List.flatMap_cons, List.append_assoc, startConditions_append,
    stopConditions_append, replay_writeBitTrace, hstart, hstop, hstart7, hstop7]
  exact ⟨rfl, rfl⟩

/-! ### Clock pulses (R119) -/

/-- Data bits of one complete pulse each, high for h. -/
theorem clockHighTimes_pulses {f : Bool → List Event} {h : Nat}
    (hf : ∀ x es, clockHighTimes (f x ++ es) none = h :: clockHighTimes es none) (bits : List Bool) (es : List Event) :
    clockHighTimes (bits.flatMap f ++ es) none = List.replicate bits.length h ++ clockHighTimes es none := by
  induction bits with
  | nil => rfl
  | cons x xs ih => rw [List.flatMap_cons, List.append_assoc, hf, ih]; rfl

/-- Data bits that leave the clock low for l so far and complete the low time before them to m. -/
theorem clockLowTimes_pulses {f : Bool → List Event} {l m : Nat}
    (hf : ∀ x es, clockLowTimes (f x ++ es) (some l) = m :: clockLowTimes es (some l)) (bits : List Bool)
    (es : List Event) :
    clockLowTimes (bits.flatMap f ++ es) (some l) = List.replicate bits.length m ++ clockLowTimes es (some l) := by
  induction bits with
  | nil => rfl
  | cons x xs ih => rw [List.flatMap_cons, List.append_assoc, hf, ih]; rfl

theorem clockHighTimes_writeBitTrace (c : Config) (x : Bool) (es : List Event) :
    clockHighTimes (writeBitTrace c x ++ es) none = c.tHigh :: clockHighTimes es none := by
  cases x <;> simp [writeBitTrace, clockHighTimes]

/-- A data bit completes the low time before its pulse, if there is one, and leaves the next at T_HD_DAT. -/
theorem clockLowTimes_writeBitTrace (c : Config) (x : Bool) (es : List Event) (p : Option Nat) :
    clockLowTimes (writeBitTrace c x ++ es) p =
      (p.map (· + c.tSuDat)).toList ++ clockLowTimes es (some c.tHdDat) := by
  cases x <;> cases p <;> simp [writeBitTrace, clockLowTimes]

theorem clockHighTimes_writeTrace (c : Config) (imm8 : Byte) (b : Bool) :
    clockHighTimes (writeTrace c imm8 b) none = List.replicate 8 c.tHigh ++ [c.tSuDat] := by
  rw [writeTrace_eq, clockHighTimes_pulses (clockHighTimes_writeBitTrace c)]
  simp [writeAckTrace, clockHighTimes, bitsDown]

/-- The first pulse has no low time before it, the ninth no setup of the data line. -/
theorem clockLowTimes_writeTrace (c : Config) (imm8 : Byte) (b : Bool) :
    clockLowTimes (writeTrace c imm8 b) none = List.replicate 7 (c.tHdDat + c.tSuDat) ++ [c.tHdDat] := by
  rw [writeTrace_eq, bitsDown, List.map_cons, List.flatMap_cons, List.append_assoc, clockLowTimes_writeBitTrace,
    clockLowTimes_pulses (fun x es => clockLowTimes_writeBitTrace c x es (some c.tHdDat))]
  simp [writeAckTrace, clockLowTimes]

theorem clockHighTimes_readBitTrace (c : Config) (b : Bool) (es : List Event) :
    clockHighTimes (readBitTrace c b ++ es) none = c.tHigh :: clockHighTimes es none := by
  simp [readBitTrace, clockHighTimes]

theorem clockLowTimes_readBitTrace (c : Config) (b : Bool) (es : List Event) (p : Option Nat) :
    clockLowTimes (readBitTrace c b ++ es) p = p.toList ++ clockLowTimes es (some c.tHdDat) := by
  cases p <;> simp [readBitTrace, clockLowTimes]

theorem clockHighTimes_readTrace (c : Config) (a : AckPolicy) (bits : List Bool) :
    clockHighTimes (readTrace c a bits) none = List.replicate (bits.length + 1) c.tHigh := by
  have hack : clockHighTimes (readAckTrace c a) none = [c.tHigh] := by
    cases a <;> simp [readAckTrace, clockHighTimes]
  rw [readTrace_eq, clockHighTimes, clockHighTimes_pulses (clockHighTimes_readBitTrace c), hack,
    List.replicate_succ']
  all_goals nofun

/-- The engine sets up its acknowledge before the ninth pulse, and nothing before the others (log 19). -/
theorem clockLowTimes_readTrace (c : Config) (a : AckPolicy) (b : Bool) (bits : List Bool) :
    clockLowTimes (readTrace c a (b :: bits)) none =
      List.replicate bits.length c.tHdDat ++ [c.tHdDat + c.tSuDat] := by
  have hack : clockLowTimes (readAckTrace c a) (some c.tHdDat) = [c.tHdDat + c.tSuDat] := by
    cases a <;> simp [readAckTrace, clockLowTimes]
  rw [readTrace_eq, clockLowTimes, List.flatMap_cons, List.append_assoc, clockLowTimes_readBitTrace,
    clockLowTimes_pulses (fun x es => clockLowTimes_readBitTrace c x es (some c.tHdDat)), hack]
  · rfl
  all_goals nofun

/-! ### The statements settled -/

/-- Settles O12: WRITE is refused or leaves its row of `State.executed`. -/
theorem writeResult : Obligations.WriteResult :=
  ⟨fun _ _ hi => exec_executed fun _ => hi, fun _ _ => exec_refused rfl,
    fun _ h => decode_of_selects (r := ⟨.write, 0x04000000#32, 0xFFFFFF00#32⟩) (by decide) ((selects_iff _ _).2 h),
    length_writeTrace⟩

/-- Settles O13: READ is refused or leaves its row of `State.executed`, whose byte holds the k-th draw in bit 7 - k. -/
theorem readResult : Obligations.ReadResult := by
  refine ⟨fun s a hi => ⟨byteOfBits (State.draws 8 s), fun k => getElem?_eq_getLsbD_byteOfBits (draws_length 8 s),
      exec_executed fun _ => hi, fun h => ?_⟩, fun _ _ => exec_refused rfl, fun w h => ?_,
    fun c a bits => length_readTrace c a⟩
  · rw [h]
    rfl
  · exact decode_of_selects (r := ⟨.read, 0x05000000#32, 0xFFFFFFFE#32⟩) (by decide) ((selects_iff _ _).2 h)

/-- Settles O39: no start or stop condition is made because the data line moves under a low clock only. -/
theorem transfersMakeNoCondition : Obligations.TransfersMakeNoCondition := by
  rintro s i hi hscl (⟨b, rfl⟩ | ⟨a, rfl⟩)
  · have hmoves : sdaMovesWhileClockLow (writeTrace s.cfg b s.nextDraw) s.drive = true :=
      sdaMovesWhileClockLow_writeTrace _ _ _ hscl
    exact ⟨_, _, exec_executed fun _ => hi, rfl, hmoves, no_conditions_of_sdaMovesWhileClockLow _ _ hmoves⟩
  · have hmoves : sdaMovesWhileClockLow (readTrace s.cfg a (State.draws 8 s)) s.drive = true :=
      sdaMovesWhileClockLow_readTrace _ _ (draws_eight_ne_nil s) (Drive.legal_of_scl hscl)
    exact ⟨_, _, exec_executed fun _ => hi, rfl, hmoves, no_conditions_of_sdaMovesWhileClockLow _ _ hmoves⟩

/-- Settles O40: WRITE's first data bit alone finds the clock released, and READ moves the data line under a low clock
only, from an idle bus too. -/
theorem transfersOnAnIdleBus : Obligations.TransfersOnAnIdleBus := by
  refine fun s hi hd => ⟨fun b => ⟨_, _, exec_executed fun _ => hi, rfl, ?_⟩,
    fun a => ⟨_, _, exec_executed fun _ => hi, rfl, ?_⟩⟩
  · rw [hd]
    exact conditions_writeTrace_idle _ _ _
  · exact no_conditions_of_sdaMovesWhileClockLow _ _
      (sdaMovesWhileClockLow_readTrace _ _ (draws_eight_ne_nil s) (by rw [hd]; rfl))

/-- Settles O42: the times are read off the two traces, one pulse at a time. -/
theorem clockPulseTimes : Obligations.ClockPulseTimes := by
  refine ⟨fun s b hi => ⟨_, _, exec_executed fun _ => hi, rfl, clockHighTimes_writeTrace _ _ _,
    clockLowTimes_writeTrace _ _ _⟩, fun s a hi => ⟨_, _, exec_executed fun _ => hi, rfl, ?_, ?_⟩⟩
  · rw [clockHighTimes_readTrace, draws_length]
  · rw [draws_eight]
    exact clockLowTimes_readTrace _ _ _ _

end Sys2Proof.Machine
end

section
/-! The CRC unit (spec/42_crc.md R130 to R137): crc_step as division by the polynomial, additive and injective; what a
checksum run leaves; and that neither the CRC unit nor the bus unit touches the other. -/

namespace Sys2Proof.Machine

/-! ### One iteration, bit by bit (R130) -/

/-- Bit i is the bit below it, and bit 7 goes to the bits of 0x31. -/
theorem getLsbD_crcShift (c : Byte) {i : Nat} (hi : i < 8) :
    (crcShift c).getLsbD i =
      ((decide (i ≠ 0) && c.getLsbD (i - 1)) ^^ (c.getLsbD 7 && (0x31#8).getLsbD i)) := by
  rw [crcShift]
  split_ifs with h <;> simp only [h, BitVec.getLsbD_xor, BitVec.getLsbD_shiftLeft, hi] <;> simp

/-- In 16 bits, an iteration shifts left and subtracts the polynomial where the coefficient of x⁸ is then 1. -/
theorem setWidth_crcShift (c : Byte) : (crcShift c).setWidth 16 =
    if c.getLsbD 7 then (c.setWidth 16 <<< 1) ^^^ 0x131#16 else c.setWidth 16 <<< 1 := by
  refine BitVec.eq_of_getLsbD_eq fun i hi => ?_
  have hx8 : c.getLsbD 7 = _ := BitVec.getLsbD_eq_getElem (by decide)
  by_cases h : c.getLsbD 7 = true
  · rw [h] at hx8
    simp only [crcShift, if_pos h, BitVec.getLsbD_setWidth, BitVec.getLsbD_xor, BitVec.getLsbD_shiftLeft]
    interval_cases i <;> simp [← hx8]
  · rw [Bool.eq_false_of_not_eq_true h] at hx8
    simp only [crcShift, if_neg h, BitVec.getLsbD_setWidth, BitVec.getLsbD_shiftLeft]
    interval_cases i <;> simp [← hx8]

/-! ### The step is division by the polynomial (R130) -/

/-- One step of the long division, where all coefficients above the leading one are 0. -/
theorem divideBy131_succ {k : Nat} (hk : k < 8) (c : Byte) :
    divideBy131 (k + 1) (c.setWidth 16 <<< (k + 1)) = divideBy131 k ((crcShift c).setWidth 16 <<< k) := by
  have hlead : (c.setWidth 16 <<< (k + 1)).getLsbD (k + 8) = c.getLsbD 7 := by
    simp [show k + 8 < 16 by omega, show k + 8 - (k + 1) = 7 by omega]
  rw [divideBy131, hlead, setWidth_crcShift]
  split_ifs
  · rw [BitVec.shiftLeft_xor_distrib, ← BitVec.shiftLeft_add, Nat.add_comm 1]
  · rw [← BitVec.shiftLeft_add, Nat.add_comm 1]

/-- k iterations divide c·xᵏ. -/
theorem divideBy131_eq_crcShifts {k : Nat} (hk : k ≤ 8) (c : Byte) :
    divideBy131 k (c.setWidth 16 <<< k) = (crcShifts k c).setWidth 16 := by
  induction k generalizing c with
  | zero => exact BitVec.shiftLeft_zero _
  | succ k ih => rw [divideBy131_succ hk, ih (Nat.le_of_succ_le hk), crcShifts]

theorem append_zero_eq_shiftLeft (v : Byte) : v ++ 0#8 = v.setWidth 16 <<< 8 := by
  rw [BitVec.shiftLeft_eq_concat_of_lt (by decide), BitVec.extractLsb'_setWidth_of_le (by decide), BitVec.cast_eq]
  exact congrArg (· ++ 0#8) BitVec.extractLsb'_eq_self.symm

theorem polyRemainder_eq_crcShifts (v : Byte) : polyRemainder v = crcShifts 8 v := by
  rw [polyRemainder, append_zero_eq_shiftLeft, divideBy131_eq_crcShifts le_rfl,
    BitVec.extractLsb'_setWidth_of_le (by decide), BitVec.extractLsb'_eq_self]

/-! ### The step over GF(2) (R130) -/

theorem crcShift_xor (x y : Byte) : crcShift (x ^^^ y) = crcShift x ^^^ crcShift y := by
  refine BitVec.eq_of_getLsbD_eq fun i hi => ?_
  simp only [BitVec.getLsbD_xor, getLsbD_crcShift _ hi, Bool.and_xor_distrib_left, Bool.and_xor_distrib_right]
  simp only [Bool.xor_assoc, Bool.xor_left_comm]

theorem crcShifts_xor (k : Nat) (x y : Byte) : crcShifts k (x ^^^ y) = crcShifts k x ^^^ crcShifts k y := by
  induction k generalizing x y with
  | zero => rfl
  | succ k ih => simp only [crcShifts, crcShift_xor, ih]

/-- Bit 0 of what an iteration leaves is the bit it dropped, because 0x31 is odd, so no iteration loses anything. -/
theorem crcShift_injective : Function.Injective crcShift := by
  intro x y h
  have hbit {i : Nat} (hi : i < 8) : (crcShift x).getLsbD i = (crcShift y).getLsbD i := by rw [h]
  have htop : x.getLsbD 7 = y.getLsbD 7 := by
    have h0 := hbit (i := 0) (by decide)
    rw [getLsbD_crcShift x (by decide), getLsbD_crcShift y (by decide)] at h0
    simpa using h0
  refine BitVec.eq_of_getLsbD_eq fun i hi => ?_
  obtain hi' | rfl : i + 1 < 8 ∨ i = 7 := by omega
  · have hnext := hbit hi'
    rw [getLsbD_crcShift x hi', getLsbD_crcShift y hi', htop] at hnext
    simpa using hnext
  · exact htop

theorem crcShifts_injective (k : Nat) : Function.Injective (crcShifts k) := by
  induction k with
  | zero => exact Function.injective_id
  | succ k ih => exact ih.comp crcShift_injective

theorem crcShifts_zero (k : Nat) : crcShifts k 0#8 = 0#8 := by
  induction k with
  | zero => rfl
  | succ k ih => exact ih

/-- The step forgets nothing of what it folds together. -/
theorem crcStep_eq_crcStep_iff (c b c' b' : Byte) : crcStep c b = crcStep c' b' ↔ c ^^^ b = c' ^^^ b' :=
  (crcShifts_injective 8).eq_iff

@[simp] theorem crcStep_self (b : Byte) : crcStep b b = 0#8 := by
  rw [crcStep, BitVec.xor_self, crcShifts_zero]

theorem crcStep_eq_zero_iff (c b : Byte) : crcStep c b = 0#8 ↔ c = b := by
  rw [← crcStep_self 0#8, crcStep_eq_crcStep_iff, BitVec.xor_self, BitVec.xor_eq_zero_iff]

/-- With one byte of two changed, the change of the CRC is never undone by the other byte. -/
theorem crcStep_crcStep_ne {c d0 d1 d0' d1' : Byte} (h : (d0' = d0 ∧ d1' ≠ d1) ∨ (d0' ≠ d0 ∧ d1' = d1)) :
    crcStep (crcStep c d0') d1' ≠ crcStep (crcStep c d0) d1 := by
  rw [Ne, crcStep_eq_crcStep_iff]
  rcases h with ⟨rfl, h1⟩ | ⟨h0, rfl⟩
  · rwa [BitVec.xor_right_inj]
  · rwa [BitVec.xor_left_inj, crcStep_eq_crcStep_iff, BitVec.xor_right_inj]

/-- A single flipped bit of a pair of bytes is in one byte and leaves the other. -/
theorem flipped_bit_changes_one_byte {d0 d1 d0' d1' : Byte} {k : Nat} (hk : k < 16)
    (h : d0' ++ d1' = (d0 ++ d1) ^^^ (1#16 <<< k)) : (d0' = d0 ∧ d1' ≠ d1) ∨ (d0' ≠ d0 ∧ d1' = d1) := by
  rw [← BitVec.twoPow_eq] at h
  have hlow {i : Nat} (hi : i < 8) : d1'.getLsbD i = (d1.getLsbD i ^^ decide (k = i)) := by
    have hbit := congrArg (BitVec.getLsbD · i) h
    simpa only [BitVec.getLsbD_xor, BitVec.getLsbD_append, BitVec.getLsbD_twoPow, hi, hk, if_true, decide_true,
      Bool.true_and] using hbit
  have hhigh {i : Nat} (hi : i < 8) : d0'.getLsbD i = (d0.getLsbD i ^^ decide (k = 8 + i)) := by
    have hbit := congrArg (BitVec.getLsbD · (8 + i)) h
    simpa only [BitVec.getLsbD_xor, BitVec.getLsbD_append, BitVec.getLsbD_twoPow, hk, if_false,
      Nat.not_lt.2 (Nat.le_add_right 8 i), Nat.add_sub_cancel_left, decide_true, Bool.true_and] using hbit
  by_cases hk8 : k < 8
  · refine .inl ⟨BitVec.eq_of_getLsbD_eq fun i hi => ?_, fun he => ?_⟩
    · simp [hhigh hi, show k ≠ 8 + i by omega]
    · simpa [he] using hlow hk8
  · obtain ⟨j, rfl⟩ := Nat.exists_eq_add_of_le (Nat.not_lt.1 hk8)
    refine .inr ⟨fun he => ?_, BitVec.eq_of_getLsbD_eq fun i hi => ?_⟩
    · simpa [he] using hhigh (i := j) (by omega)
    · simp [hlow hi, show 8 + j ≠ i by omega]

/-! ### Checksum runs (R134) -/

theorem bne_byte_eq_decide (a b : Byte) : (a != b) = decide (a ≠ b) := by
  simp only [bne, beq_eq_decide, decide_not]

theorem exec_crcinit (s : State) : exec .crcinit s = .next { s with crc := 0x00#8 } := exec_executed nofun

theorem exec_crcupd (b : Byte) (s : State) : exec (.crcupd b) s = .next { s with crc := crcStep s.crc b } :=
  exec_executed nofun

theorem exec_crcchk (e : Byte) (s : State) :
    exec (.crcchk e) s = .next { s with crcerr := decide (s.crc ≠ e) } := by
  rw [exec_executed (i := .crcchk e) nofun, State.executed, bne_byte_eq_decide]

theorem runCommands_crcupds (ds : List Byte) (s : State) :
    runCommands (ds.map .crcupd) s = .next { s with crc := ds.foldl crcStep s.crc } := by
  induction ds generalizing s with
  | nil => rfl
  | cons d ds ih => rw [List.map_cons, runCommands_cons, exec_crcupd, andThen_next, ih, List.foldl_cons]

/-- What the commands of `CHECKCRC e, d0, ..., dk-1` leave (R77, R134). -/
theorem runCommands_checkcrcExpansion (e : Byte) (ds : List Byte) (s : State) :
    runCommands (checkcrcExpansion e ds) s = .next { s with crc := crcOf ds, crcerr := decide (crcOf ds ≠ e) } := by
  rw [checkcrcExpansion, runCommands_append, runCommands_cons, exec_crcinit, andThen_next, runCommands_crcupds,
    andThen_next, runCommands_cons, exec_crcchk, andThen_next, runCommands_nil, crcOf]

/-- A byte sequence followed by its own checksum (R135). -/
theorem crcOf_append_crcOf (ds : List Byte) : crcOf (ds ++ [crcOf ds]) = 0#8 := by
  rw [crcOf, List.foldl_concat]
  exact crcStep_self _

/-! ### The two units (R137) -/

section
variable {i : Instr} (hi : i = .crcinit ∨ (∃ b, i = .crcupd b) ∨ ∃ e, i = .crcchk e) (s : State)
include hi

/-- A CRC command is never refused (R33). -/
theorem exec_crcCommand : exec i s = .next (s.executed i) := by
  rcases hi with rfl | ⟨b, rfl⟩ | ⟨e, rfl⟩ <;> rfl

theorem executed_crcCommand_frame : s.executed i = s.withCrcUnit (s.executed i).crc (s.executed i).crcerr := by
  rcases hi with rfl | ⟨b, rfl⟩ | ⟨e, rfl⟩ <;> rfl

theorem executed_withBusUnit (sda scl ini ack : Bool) (r : Byte) :
    (s.withBusUnit sda scl ini ack r).executed i = (s.executed i).withBusUnit sda scl ini ack r := by
  rcases hi with rfl | ⟨b, rfl⟩ | ⟨e, rfl⟩ <;> rfl

end

theorem executed_busCommand_keeps_crcUnit {i : Instr} (h : isBusCommand i = true) (s : State) :
    (s.executed i).crc = s.crc ∧ (s.executed i).crcerr = s.crcerr := by
  cases i with
  | start | stop | write | read => exact ⟨rfl, rfl⟩
  | init | crcinit | crcupd | crcchk | delay => cases h

theorem executed_withCrcUnit {i : Instr} (h : isBusCommand i = true) (s : State) (c : Byte) (e : Bool) :
    (s.withCrcUnit c e).executed i = (s.executed i).withCrcUnit c e := by
  cases i with
  | start | stop | write | read => rfl
  | init | crcinit | crcupd | crcchk | delay => cases h

/-- Refused or not, a bus command neither reads nor writes the CRC unit. -/
theorem exec_busCommand_ignores_crcUnit {i : Instr} (h : isBusCommand i = true) (s : State) (c : Byte) (e : Bool) :
    ∃ t, exec i s = .next t ∧ t.crc = s.crc ∧ t.crcerr = s.crcerr ∧
      exec i (s.withCrcUnit c e) = .next (t.withCrcUnit c e) := by
  rcases refused_or_executes i s with ⟨-, hs⟩ | hs
  · exact ⟨_, exec_refused h hs, rfl, rfl, exec_refused h hs⟩
  · obtain ⟨hcrc, herr⟩ := executed_busCommand_keeps_crcUnit h s
    exact ⟨_, exec_executed hs, hcrc, herr, executed_withCrcUnit h s c e ▸ exec_executed hs⟩

/-! ### The statements settled -/

/-- Settles O44: the eight iterations leave the long division's remainder, one for each of its steps. -/
theorem crcStepIsPolynomialRemainder : Obligations.CrcStepIsPolynomialRemainder := fun c b =>
  (polyRemainder_eq_crcShifts (c ^^^ b)).symm

/-- Settles O45: every iteration is additive. -/
theorem crcStepIsAdditive : Obligations.CrcStepIsAdditive := by
  intro c c' b b'
  have hswap : c ^^^ c' ^^^ (b ^^^ b') = (c ^^^ b) ^^^ (c' ^^^ b') := by ac_rfl
  simp only [crcStep, hswap, crcShifts_xor]

/-- Settles O46: the sequence is what `CHECKCRC` stands for. -/
theorem checkCrcSequence : Obligations.CheckCrcSequence :=
  ⟨fun ds e s => runCommands_checkcrcExpansion e ds s, fun e s => runCommands_checkcrcExpansion e [] s⟩

/-- Settles O47: the last step folds the CRC into itself, and a step gives 0 only so. -/
theorem checksumLeavesZeroResidue : Obligations.ChecksumLeavesZeroResidue := by
  refine ⟨crcOf_append_crcOf, fun d0 d1 c s => ⟨_, _, runCommands_checkcrcExpansion 0x00#8 [d0, d1, c] s,
    runCommands_checkcrcExpansion c [d0, d1] s, ?_⟩⟩
  exact decide_eq_decide.2 (not_congr (crcStep_eq_zero_iff _ _))

/-- Settles O48: the flipped bit changes one byte, and so the CRC, which then differs from the checksum held. -/
theorem singleBitErrorsAreDetected : Obligations.SingleBitErrorsAreDetected := by
  intro d0 d1 d0' d1' k s hk h
  exact ⟨_, runCommands_checkcrcExpansion _ [d0', d1'] s,
    decide_eq_true (crcStep_crcStep_ne (flipped_bit_changes_one_byte hk h))⟩

/-- Settles O49: each unit's state may be replaced before a command of the other, or after. -/
theorem unitsAreIndependent : Obligations.UnitsAreIndependent := by
  refine ⟨fun i s sda scl ini ack r hi => ⟨_, exec_crcCommand hi s, ?_, executed_crcCommand_frame hi s⟩,
    fun i s c e hi => exec_busCommand_ignores_crcUnit ((isBusCommand_iff i).2 (.inr (.inr hi))) s c e⟩
  rw [exec_crcCommand hi, executed_withBusUnit hi]

/-- Settles O14: each command's row of `State.executed`, its word's row, and the examples of R132 by
running the step. -/
theorem crcCommandResults : Obligations.CrcCommandResults :=
  ⟨exec_crcinit, fun s b => exec_crcupd b s, fun s e => exec_crcchk e s, crcStep_self, crcStep_self _, by decide,
    by decide, decode_encode .crcinit,
    fun _ h => decode_of_selects (r := ⟨.crcupd, 0x11000000#32, 0xFFFFFF00#32⟩) (by decide) ((selects_iff _ _).2 h),
    fun _ h => decode_of_selects (r := ⟨.crcchk, 0x12000000#32, 0xFFFFFF00#32⟩) (by decide) ((selects_iff _ _).2 h)⟩

end Sys2Proof.Machine
end

section
/-! DELAY and the minimum durations (spec/43_timing.md R150 to R155): what DELAY leaves, and how long each command's
trace waits. -/

namespace Sys2Proof.Machine

/-! ### What the traces wait (R154) -/

/-- Data bits that wait m each. -/
theorem minDuration_pulses {f : Bool → List Event} {m : Nat} (hf : ∀ x, minDuration (f x) = m) (bits : List Bool) :
    minDuration (bits.flatMap f) = bits.length * m := by
  induction bits with
  | nil => rw [List.length_nil, Nat.zero_mul]; rfl
  | cons x xs ih =>
    rw [List.flatMap_cons, minDuration_append, hf, ih, List.length_cons, Nat.add_one_mul, Nat.add_comm]

theorem minDuration_startTrace (c : Config) :
    minDuration (startTrace c) = 2 * c.tBrief + c.tHdSta + c.tSettle := by
  simp only [startTrace, minDuration]
  omega

theorem minDuration_stopTrace (c : Config) :
    minDuration (stopTrace c) = 2 * c.tBrief + c.tSuSto + c.tSettle := by
  simp only [stopTrace, minDuration]
  omega

/-- Whatever the bit's value. -/
theorem minDuration_writeBitTrace (c : Config) (x : Bool) :
    minDuration (writeBitTrace c x) = c.tSuDat + c.tHigh + c.tHdDat := by
  cases x <;> simp [writeBitTrace, minDuration, Nat.add_assoc]

theorem minDuration_writeTrace (c : Config) (imm8 : Byte) (b : Bool) : minDuration (writeTrace c imm8 b) =
    8 * (c.tSuDat + c.tHigh + c.tHdDat) + c.tSuDat + c.tTrail := by
  have hack : minDuration (writeAckTrace c b) = c.tSuDat + c.tTrail := rfl
  rw [writeTrace_eq, minDuration_append, minDuration_pulses (minDuration_writeBitTrace c), hack, ← Nat.add_assoc]
  rfl

theorem minDuration_readBitTrace (c : Config) (b : Bool) :
    minDuration (readBitTrace c b) = c.tHigh + c.tHdDat := rfl

/-- READ's ninth pulse waits the same whether the engine acknowledges or not. -/
theorem minDuration_readAckTrace (c : Config) (a : AckPolicy) :
    minDuration (readAckTrace c a) = c.tSuDat + c.tHigh + c.tTrail := by
  cases a <;> simp [readAckTrace, minDuration, Nat.add_assoc]

theorem minDuration_readTrace (c : Config) (a : AckPolicy) {bits : List Bool} (h : bits.length = 8) :
    minDuration (readTrace c a bits) = 8 * (c.tHigh + c.tHdDat) + c.tSuDat + c.tHigh + c.tTrail := by
  rw [readTrace_eq, minDuration, minDuration_append, minDuration_pulses (minDuration_readBitTrace c), h,
    minDuration_readAckTrace]
  · simp only [Nat.add_assoc]
  · nofun

/-! ### The statements settled -/

/-- Settles O43: the durations are read off the traces of `State.executed`; a refused bus command and an illegal word
only set their sticky bit. -/
theorem minimumDurations : Obligations.MinimumDurations := by
  refine ⟨fun i s h => ?_, fun i s hb hi => ⟨_, exec_refused hb hi, rfl⟩,
    fun w s h => ⟨_, execute_illegal h s, rfl⟩,
    fun s hi hBrief hHdSta hSuSto hSettle hSuDat hHigh hHdDat hTrail => ⟨?_, ?_, fun b => ?_, fun a => ?_⟩⟩
  · cases i with
    | init => exact ⟨_, initTrace, exec_executed h, rfl, rfl⟩
    | start => exact ⟨_, _, exec_executed h, rfl, minDuration_startTrace _⟩
    | stop => exact ⟨_, _, exec_executed h, rfl, minDuration_stopTrace _⟩
    | write b => exact ⟨_, _, exec_executed h, rfl, minDuration_writeTrace _ _ _⟩
    | read a => exact ⟨_, _, exec_executed h, rfl, minDuration_readTrace _ _ (draws_length 8 s)⟩
    | crcinit | crcupd | crcchk => exact ⟨_, [], exec_executed h, (List.append_nil _).symm, rfl⟩
    | delay n => exact ⟨_, [.wait n.toNat], exec_executed h, rfl, rfl⟩
  · exact ⟨_, _, exec_executed fun _ => hi, rfl, by rw [minDuration_startTrace, hBrief, hHdSta, hSettle]⟩
  · exact ⟨_, _, exec_executed fun _ => hi, rfl, by rw [minDuration_stopTrace, hBrief, hSuSto, hSettle]⟩
  · exact ⟨_, _, exec_executed fun _ => hi, rfl, by rw [minDuration_writeTrace, hSuDat, hHigh, hHdDat, hTrail]⟩
  · exact ⟨_, _, exec_executed fun _ => hi, rfl,
      by rw [minDuration_readTrace _ _ (draws_length 8 s), hSuDat, hHigh, hHdDat, hTrail]⟩

/-- Settles O15: DELAY's row of `State.executed`, and its word's row. -/
theorem delayResult : Obligations.DelayResult :=
  ⟨fun _ _ => exec_executed nofun,
    fun _ h => decode_of_selects (r := ⟨.delay, 0x20000000#32, 0xFFFF0000#32⟩) (by decide) ((selects_iff _ _).2 h)⟩

end Sys2Proof.Machine
end

section
/-! The host protocol (spec/49_host_protocol.md R170 to R186): what its register accesses do after an INIT, the two bus
transactions, the bound on retries, and when GetFlow writes its command. -/

namespace Sys2Proof.Machine

/-! ### The accesses (R78) -/

/-- `wr CMD, i` runs the command (R57, R74). -/
theorem wrCmd_eq_exec (i : Instr) (s : State) : wrCmd i s = exec i s := by
  rw [wrCmd, hostWrite_base, execute_of_decode (decode_encode i)]

theorem wrCmds_eq_runCommands (is : List Instr) (s : State) : wrCmds is s = runCommands is s := by
  induction is generalizing s with
  | nil => rfl
  | cons i is ih =>
    obtain ⟨t, ht⟩ := exec_completes i s
    rw [wrCmds, wrCmd_eq_exec, runCommands_cons, ht, andThen_next, andThen_next, ih]

/-- One more value returned to the host (log 7). -/
def State.logged (v : Word) (s : State) : State := { s with readLog := s.readLog ++ [v] }

theorem rdReg_status (s : State) : rdReg 0x04#32 s = (s.status, s.logged s.status) := by
  rw [rdReg, hostRead_status]
  simp only [memRead, legalShape, offset_base_add]
  rfl

theorem rdReg_rxdata (s : State) : rdReg 0x08#32 s = (s.rxdata, s.logged s.rxdata) := by
  rw [rdReg, hostRead_rxdata]
  simp only [memRead, legalShape, offset_base_add]
  rfl

theorem ackErr_status (s : State) : ackErr s.status = if s.ackerr then 1#2 else 0#2 := by
  rw [ackErr, getLsbD_status, if_pos rfl]

theorem checksumErr_status (s : State) : checksumErr s.status = if s.crcerr then 2#2 else 0#2 := by
  rw [checksumErr, getLsbD_status, if_neg Nat.one_ne_zero, if_pos rfl]

theorem extractLsb'_rxdata (s : State) : s.rxdata.extractLsb' 0 8 = s.rx := by
  rw [State.rxdata, BitVec.zeroExtend, BitVec.extractLsb'_setWidth_of_le (by decide), BitVec.extractLsb'_eq_self]

/-! ### Commands and bytes with INIT = 1 -/

theorem wrCmd_of_init (i : Instr) {s : State} (h : s.init = true) : wrCmd i s = .next (s.executed i) := by
  rw [wrCmd_eq_exec, exec_executed fun _ => h]

/-- The block after `wr CMD, WRITE b; rd STATUS` (R176). -/
def State.wroteByte (b : Byte) (s : State) : State := (s.executed (.write b)).logged (s.executed (.write b)).status

/-- The block after `wr CMD, READ a; rd RXDATA` (R177). -/
def State.tookByte (a : AckPolicy) (s : State) : State := (s.executed (.read a)).logged (s.executed (.read a)).rxdata

@[simp] theorem wroteByte_init (b : Byte) (s : State) : (s.wroteByte b).init = s.init := rfl

@[simp] theorem tookByte_init (a : AckPolicy) (s : State) : (s.tookByte a).init = s.init := rfl

theorem writeByte_of_init (b : Byte) {s : State} (h : s.init = true) :
    writeByte b s = .next (if s.nextDraw then 1#2 else 0#2, s.wroteByte b) := by
  rw [writeByte, wrCmd_of_init _ h, andThen_next, rdReg_status, ackErr_status]
  rfl

theorem readByte_of_init (a : AckPolicy) {s : State} (h : s.init = true) :
    readByte a s = .next (byteOfBits (State.draws 8 s), s.tookByte a) := by
  rw [readByte, wrCmd_of_init _ h, andThen_next, rdReg_rxdata, extractLsb'_rxdata]
  rfl

/-- The draws after the first m are those of any state that has used these up. -/
theorem draws_add (m n : Nat) {s t : State} (hb : t.busIn = s.busIn.drop m)
    (hc : t.sampleCount = s.sampleCount + m) : State.draws (m + n) s = State.draws m s ++ State.draws n t := by
  induction m generalizing s with
  | zero => rw [Nat.zero_add]; exact draws_congr n hb.symm hc.symm
  | succ m ih =>
    rw [Nat.succ_add, State.draws, State.draws, List.cons_append, ih (s := s.advance)]
    · rw [hb, advance_busIn, List.drop_tail]
    · rw [hc, advance_sampleCount, Nat.add_assoc, Nat.add_comm 1]

/-! ### WriteCommand (R176) -/

/-- The block after `WriteCommand(cmd)`. -/
def State.wroteCommand (cmd : BitVec 16) (s : State) : State :=
  ((((s.executed .start).wroteByte 0x80#8).wroteByte (cmd.extractLsb' 8 8)).wroteByte
    (cmd.extractLsb' 0 8)).executed .stop

/-- The three acknowledges together (R171). -/
theorem or_ackErrs (a0 a1 a2 : Bool) : ((if a0 then 1#2 else 0#2) ||| (if a1 then 1#2 else 0#2) |||
    (if a2 then 1#2 else 0#2) : HostErr) = if a0 || a1 || a2 then 1#2 else 0#2 := by
  revert a0 a1 a2
  decide

/-- START takes no draw, so the three bytes take the first three. -/
theorem writeCommand_of_init (cmd : BitVec 16) {ses : Session} (h : ses.machine.init = true) {a0 a1 a2 : Bool}
    (hd : State.draws 3 ses.machine = [a0, a1, a2]) :
    writeCommand cmd ses = .next (if a0 || a1 || a2 then 1#2 else 0#2,
      ⟨ses.machine.wroteCommand cmd, if a0 || a1 || a2 then ses.cache else some cmd⟩) := by
  have haddr : addressByte sensorAddress false = 0x80#8 := by decide
  obtain ⟨h0, h1, h2⟩ : (ses.machine.executed .start).nextDraw = a0 ∧
      ((ses.machine.executed .start).wroteByte 0x80#8).nextDraw = a1 ∧
      (((ses.machine.executed .start).wroteByte 0x80#8).wroteByte (cmd.extractLsb' 8 8)).nextDraw = a2 := by
    simp only [State.draws, List.cons.injEq, and_true] at hd
    exact hd
  simp only [writeCommand, haddr, wrCmd_of_init, writeByte_of_init, wroteByte_init, executed_init, reduceCtorEq,
    if_false, h, andThen_next, h0, h1, h2, or_ackErrs, State.wroteCommand]
  cases a0 || a1 || a2 <;> rfl

/-! ### ReadCommandResult (R177) -/

/-- The block after the address byte of `ReadCommandResult`. -/
def State.addressedRead (s : State) : State := (s.executed .start).wroteByte 0x81#8

/-- The block after the first data byte, which RX then holds. -/
def State.tookFirst (s : State) : State := s.addressedRead.tookByte .ack

/-- The block after the second data byte. -/
def State.tookSecond (s : State) : State := s.tookFirst.tookByte .ack

/-- The block after the checksum byte. -/
def State.tookThird (s : State) : State := s.tookSecond.tookByte .nack

/-- The block after STOP and `CHECKCRC c, d0, d1`. -/
def State.stopChecked (c d0 d1 : Byte) (s : State) : State :=
  { s.executed .stop with crc := crcOf [d0, d1], crcerr := decide (crcOf [d0, d1] ≠ c) }

/-- The block after STOP and the checksum run over the three bytes. -/
def State.checkedResult (s : State) : State := s.tookThird.stopChecked s.tookThird.rx s.tookFirst.rx s.tookSecond.rx

/-- The error of `ReadCommandResult`, as the block's ACKERR and CRCERR tell it (R171). -/
def State.readErr (s : State) : HostErr := (if s.ackerr then 1#2 else 0#2) ||| (if s.crcerr then 2#2 else 0#2)

/-- START takes no draw, and each READ takes eight. -/
theorem draws_readCommandResult (s : State) : State.draws 25 s = s.nextDraw :: State.draws 8 s.addressedRead ++
    State.draws 8 s.tookFirst ++ State.draws 8 s.tookSecond := by
  calc State.draws 25 s
    _ = s.nextDraw :: State.draws (8 + (8 + 8)) s.advance := rfl
    _ = s.nextDraw :: State.draws (8 + (8 + 8)) s.addressedRead := congrArg _ (draws_congr _ rfl rfl)
    _ = _ := by
      rw [draws_add 8 (8 + 8) (t := s.tookFirst) rfl rfl, draws_add 8 8 (t := s.tookSecond) rfl rfl,
        List.cons_append, List.cons_append, List.append_assoc]

theorem runCommands_stop_checkcrc {s : State} (h : s.init = true) (c d0 d1 : Byte) :
    runCommands (.stop :: checkcrcExpansion c [d0, d1]) s = .next (s.stopChecked c d0 d1) := by
  rw [runCommands_cons, exec_executed fun _ => h, andThen_next, runCommands_checkcrcExpansion]
  rfl

theorem readCommandResult_of_init (result : BitVec 16) {s : State} (h : s.init = true) :
    readCommandResult result s = .next ⟨s.checkedResult.readErr,
      if s.checkedResult.readErr = 0#2 then s.tookFirst.rx ++ s.tookSecond.rx else result,
      s.checkedResult.logged s.checkedResult.status⟩ := by
  have haddr : addressByte sensorAddress true = 0x81#8 := by decide
  simp only [readCommandResult, haddr, wrCmd_of_init, writeByte_of_init, readByte_of_init, wroteByte_init,
    tookByte_init, executed_init, reduceCtorEq, if_false, h, andThen_next, wrCmds_eq_runCommands,
    runCommands_stop_checkcrc, rdReg_status, checksumErr_status]
  rfl

/-- The checksum run compares the CRC of the data bytes with the third byte. -/
theorem readErr_checkedResult (s : State) : s.checkedResult.readErr = (if s.nextDraw then 1#2 else 0#2) |||
    (if crcOf [s.tookFirst.rx, s.tookSecond.rx] ≠ s.tookThird.rx then 2#2 else 0#2) := by
  simp only [State.readErr, State.checkedResult, State.stopChecked, decide_eq_true_eq]
  rfl

/-! ### Bus transactions in a trace (R93 to R95) -/

theorem replay_writeTrace (c : Config) (imm8 : Byte) (b : Bool) (d : Drive) :
    replay (writeTrace c imm8 b) d = ⟨false, true⟩ := by
  rw [writeTrace_eq, replay_append]
  rfl

theorem replay_readTrace (c : Config) (a : AckPolicy) (bits : List Bool) (d : Drive) :
    replay (readTrace c a bits) d = ⟨false, true⟩ := by
  rw [readTrace, replay_append]
  cases a <;> rfl

/-- From a drive state d the events hold k start conditions and k stop conditions, and release both lines. A START that
finds SDA low under a released clock makes one stop condition more; no drive state of R96 is such. -/
structure HoldsTransactions (k : Nat) (es : List Event) (d : Drive) : Prop where
  starts : startConditions es d = k
  stops : stopConditions es d = k + if d = ⟨true, false⟩ then 1 else 0
  idle : replay es d = ⟨false, false⟩

theorem HoldsTransactions.append {k l : Nat} {es fs : List Event} {d : Drive} (he : HoldsTransactions k es d)
    (hf : HoldsTransactions l fs ⟨false, false⟩) : HoldsTransactions (k + l) (es ++ fs) d where
  starts := by rw [startConditions_append, he.idle, he.starts, hf.starts]
  stops := by
    rw [stopConditions_append, he.idle, he.stops, hf.stops, if_neg (Drive.ne_of_legal (d := ⟨false, false⟩) rfl)]
    omega
  idle := by rw [replay_append, he.idle, hf.idle]

theorem holdsTransactions_waits (ns : List (BitVec 16)) :
    HoldsTransactions 0 (ns.map fun n => .wait n.toNat) ⟨false, false⟩ := by
  induction ns with
  | nil => exact ⟨rfl, rfl, rfl⟩
  | cons n ns ih =>
    obtain ⟨hstarts, hstops, hidle⟩ := ih
    exact ⟨(Nat.zero_add _).trans hstarts, (Nat.zero_add _).trans hstops, hidle⟩

/-- START, events that move the data line under a low clock only, and STOP. -/
theorem holdsTransactions_startStop (c : Config) {es : List Event} (h : sdaMovesWhileClockLow es ⟨true, true⟩ = true)
    (d : Drive) : HoldsTransactions 1 (startTrace c ++ es ++ stopTrace c) d := by
  obtain ⟨hstarts, hstops⟩ := no_conditions_of_sdaMovesWhileClockLow es _ h
  have hreplay : replay (startTrace c) d = ⟨true, true⟩ := rfl
  refine ⟨?_, ?_, ?_⟩
  · rw [startConditions_append, startConditions_append, startConditions_startTrace, hreplay, hstarts,
      startConditions_stopTrace]
  · rw [stopConditions_append, stopConditions_append, stopConditions_startTrace, hreplay, hstops,
      stopConditions_stopTrace]
    omega
  · rw [replay_append]
    rfl

/-- What `ReadCommandResult` transfers between its START and its STOP (R177). -/
def readResultTransfers (c : Config) (a0 : Bool) (b0 b1 b2 : List Bool) : List Event :=
  writeTrace c 0x81#8 a0 ++ readTrace c .ack b0 ++ readTrace c .ack b1 ++ readTrace c .nack b2

theorem sdaMovesWhileClockLow_readResultTransfers (c : Config) (a0 : Bool) {b0 b1 b2 : List Bool} (h0 : b0 ≠ [])
    (h1 : b1 ≠ []) (h2 : b2 ≠ []) :
    sdaMovesWhileClockLow (readResultTransfers c a0 b0 b1 b2) ⟨true, true⟩ = true := by
  have hlegal : Drive.legal ⟨false, true⟩ = true := rfl
  simp only [readResultTransfers, sdaMovesWhileClockLow_append, replay_append, replay_writeTrace, replay_readTrace,
    sdaMovesWhileClockLow_writeTrace, sdaMovesWhileClockLow_readTrace _ _ _ hlegal, h0, h1, h2, ne_eq,
    not_false_eq_true, Bool.and_self]

/-! ### Retries (R178) -/

theorem readCommandResult_transaction (result : BitVec 16) {s : State} (h : s.init = true) :
    ∃ r es, readCommandResult result s = .next r ∧ r.machine.trace = s.trace ++ es ∧
      HoldsTransactions 1 es s.drive ∧ r.machine.init = true ∧ r.machine.drive = ⟨false, false⟩ ∧
      (r.err ≠ 0#2 → r.result = result) := by
  refine ⟨_, startTrace s.cfg ++ readResultTransfers s.cfg s.nextDraw (State.draws 8 s.addressedRead)
    (State.draws 8 s.tookFirst) (State.draws 8 s.tookSecond) ++ stopTrace s.cfg, readCommandResult_of_init result h, ?_,
    holdsTransactions_startStop _ (sdaMovesWhileClockLow_readResultTransfers _ _ (draws_eight_ne_nil _)
      (draws_eight_ne_nil _) (draws_eight_ne_nil _)) _, h, rfl, fun he => if_neg he⟩
  simp only [readResultTransfers, ← List.append_assoc]
  rfl

/-- The block after the host has waited t microseconds by `DELAYL t` (R77, R153). -/
def State.delayed (t : Nat) (s : State) : State :=
  { s with trace := s.trace ++ (delaylOperands t).map fun n => .wait n.toNat }

theorem wrCmds_delaylExpansion (t : Nat) (s : State) : wrCmds (delaylExpansion t) s = .next (s.delayed t) := by
  rw [wrCmds_eq_runCommands, delaylExpansion_eq, runCommands_delays]
  rfl

/-- One pass of the loop: an attempt, and the wait after it if it failed. -/
theorem readCommandResultWithTimeout_succ (tRetry n : Nat) (result : BitVec 16) {s : State} (h : s.init = true) :
    ∃ r es, r.machine.trace = s.trace ++ es ∧ HoldsTransactions 1 es s.drive ∧ r.machine.init = true ∧
      r.machine.drive = ⟨false, false⟩ ∧ (r.err ≠ 0#2 → r.result = result) ∧
      readCommandResultWithTimeout tRetry (n + 1) result s =
        if r.err = 0#2 ∨ n = 0 then .next r else readCommandResultWithTimeout tRetry n r.result r.machine := by
  obtain ⟨r, es, hr, htrace, hes, hinit, hdrive, hresult⟩ := readCommandResult_transaction result h
  by_cases he : r.err = 0#2
  · refine ⟨r, es, htrace, hes, hinit, hdrive, hresult, ?_⟩
    rw [readCommandResultWithTimeout, hr, andThen_next, if_pos he, if_pos (.inl he)]
  · have htrace' : (r.machine.delayed tRetry).trace =
        s.trace ++ (es ++ (delaylOperands tRetry).map fun n => .wait n.toNat) := by
      rw [State.delayed, htrace, List.append_assoc]
    refine ⟨{ r with machine := r.machine.delayed tRetry }, _, htrace', hes.append (holdsTransactions_waits _), hinit,
      hdrive, hresult, ?_⟩
    rw [readCommandResultWithTimeout, hr, andThen_next, if_neg he, wrCmds_delaylExpansion, andThen_next]
    simp only [he, false_or]

/-- The loop, from every drive state: each attempt is one transaction, and only the last can fail. -/
theorem readCommandResultWithTimeout_of_init (tRetry n : Nat) (result : BitVec 16) {s : State} (h : s.init = true) :
    ∃ r es k, readCommandResultWithTimeout tRetry (n + 1) result s = .next r ∧ r.machine.trace = s.trace ++ es ∧
      HoldsTransactions k es s.drive ∧ 1 ≤ k ∧ k ≤ n + 1 ∧ (r.err ≠ 0#2 → k = n + 1 ∧ r.result = result) := by
  induction n generalizing s with
  | zero =>
    obtain ⟨r, es, htrace, hes, -, -, hresult, hloop⟩ := readCommandResultWithTimeout_succ tRetry 0 result h
    exact ⟨r, es, 1, hloop.trans (if_pos (.inr rfl)), htrace, hes, le_rfl, le_rfl, fun he => ⟨rfl, hresult he⟩⟩
  | succ n ih =>
    obtain ⟨r, es, htrace, hes, hinit, hdrive, hresult, hloop⟩ :=
      readCommandResultWithTimeout_succ tRetry (n + 1) result h
    by_cases he : r.err = 0#2
    · exact ⟨r, es, 1, hloop.trans (if_pos (.inl he)), htrace, hes, le_rfl, by omega, fun hne => absurd he hne⟩
    · obtain ⟨r', fs, k, hloop', htrace', hfs, hk1, hkn, hlast⟩ := ih hinit
      rw [hdrive] at hfs
      rw [if_neg (by simp [he]), hresult he, hloop'] at hloop
      refine ⟨r', es ++ fs, 1 + k, hloop, by rw [htrace', htrace, List.append_assoc], hes.append hfs, by omega,
        by omega, fun hne => ?_⟩
      obtain ⟨hk, hr'⟩ := hlast hne
      exact ⟨by omega, hr'⟩

/-! ### GetFlow (R179, R184, R185) -/

/-- Once the cache is at FLOW, by an earlier write or this one, `GetFlow` is its read. -/
theorem getFlow_of_cached {α β γ : Type} (flowOf : BitVec 16 → α → β → γ) (tRetry : Nat) (offset : α) (scale : β)
    (flow : γ) {ses w : Session} (hi : w.machine.init = true) (hc : w.cache = some flowCommand)
    (hw : (if ses.cache = some flowCommand then .next (0#2, ses) else writeCommand flowCommand ses) =
      Host.Outcome.next (0#2, w)) :
    ∃ r, readCommandResultWithTimeout tRetry 20 0#16 w.machine = .next r ∧
      getFlow flowOf tRetry offset scale flow ses = .next (r.err,
        if r.err = 0#2 then flowOf r.result offset scale else flow, ⟨r.machine, some flowCommand⟩) := by
  obtain ⟨r, -, -, hr, -⟩ := readCommandResultWithTimeout_of_init tRetry 19 0#16 hi
  refine ⟨r, hr, ?_⟩
  rw [getFlow, hw, andThen_next, if_neg (not_not.2 rfl), nFlow, hr, andThen_next, ← hc]

/-! ### The statements settled -/

/-- Settles O54: the final state and the acknowledges are those of `writeCommand_of_init`. -/
theorem writeCommandTransaction : Obligations.WriteCommandTransaction := fun cmd _ hi =>
  ⟨_, _, _, _, rfl, writeCommand_of_init cmd hi rfl, rfl, rfl, rfl, rfl, rfl, hi, rfl, rfl, rfl, rfl⟩

/-- Settles O55: the final state is that of `readCommandResult_of_init`, and RX holds each byte when it is taken. -/
theorem readCommandResultTransaction : Obligations.ReadCommandResultTransaction := by
  intro result s hi
  refine ⟨_, _, _, _, s.checkedResult.logged s.checkedResult.status, draws_readCommandResult s, draws_length 8 _,
    draws_length 8 _, draws_length 8 _, ?_, rfl, rfl, rfl, rfl, rfl, hi, rfl, rfl, rfl, rfl⟩
  rw [readCommandResult_of_init result hi, readErr_checkedResult]
  rfl

/-- Settles O56: the attempts are counted from every drive state, and a legal one adds no stop condition. -/
theorem retriesAreBounded : Obligations.RetriesAreBounded := by
  refine ⟨fun tRetry n result s hi hd hn => ?_, fun _ _ _ => rfl⟩
  obtain ⟨n, rfl⟩ := Nat.exists_eq_add_of_le' hn
  obtain ⟨r, es, k, hloop, htrace, ⟨rfl, hstops, -⟩, hk1, hkn, hlast⟩ :=
    readCommandResultWithTimeout_of_init tRetry n result hi
  rw [if_neg (Drive.ne_of_legal hd), Nat.add_zero] at hstops
  exact ⟨r, es, hloop, htrace, hk1, hkn, hstops, hlast⟩

/-- Settles O57: the write's error decides, and without one the cache is at FLOW when the read begins. -/
theorem getFlowWritesItsCommandOnce : Obligations.GetFlowWritesItsCommandOnce := by
  intro α β γ flowOf tRetry offset scale flow ses hi
  refine ⟨fun hc => getFlow_of_cached flowOf tRetry offset scale flow hi hc (if_pos hc), fun hc => ?_⟩
  have hskip : (if ses.cache = some flowCommand then .next (0#2, ses) else writeCommand flowCommand ses) =
    writeCommand 0x1000#16 ses := if_neg hc
  obtain ⟨a0, a1, a2, t, -, hw, -, -, -, -, -, ht, -⟩ := writeCommandTransaction 0x1000#16 ses hi
  cases ha : a0 || a1 || a2 with
  | true =>
    rw [ha, if_pos rfl, if_pos rfl] at hw
    refine ⟨_, _, hw, fun he => ⟨rfl, ?_⟩, fun he => absurd he (by decide)⟩
    rw [getFlow, hskip, hw, andThen_next, if_pos he]
  | false =>
    rw [ha, if_neg nofun, if_neg nofun] at hw
    exact ⟨_, _, hw, fun he => absurd rfl he, fun _ =>
      ⟨rfl, getFlow_of_cached flowOf tRetry offset scale flow ht rfl (hskip.trans hw)⟩⟩

end Sys2Proof.Machine
end

section
/-! Error conditions and the shared register window (spec/60_exceptions.md): the STATUS bit a condition sets (R201), how
many conditions one command word can set (R207), and protocol operations taking turns (R213). -/

namespace Sys2Proof.Machine

/-! ### Recording a condition (R201, R210) -/

theorem statusBit_true (b : Bool) (pos : Nat) : statusBit true pos = statusBit b pos ||| 1#32 <<< pos := by
  cases b <;> simp [statusBit]

theorem status_raiseCondition (c : Condition) (s : State) :
    (raiseCondition c s).status = s.status ||| 1#32 <<< c.code := by
  cases c <;>
    simp only [raiseCondition, State.status, Condition.code, statusBit_true s.ackerr 0, statusBit_true s.crcerr 1,
      statusBit_true s.illcmd 2, statusBit_true s.illacc 3, statusBit_true s.seqerr 4] <;>
    ac_rfl

theorem raiseCondition_withFlags (c : Condition) (s : State) :
    (raiseCondition c s).withFlags s.ackerr s.crcerr s.illcmd s.illacc s.seqerr = s := by
  cases c <;> rfl

theorem condition_raiseCondition (c c' : Condition) (s : State) :
    (raiseCondition c s).condition c' = if c' = c then true else s.condition c' := by
  cases c <;> cases c' <;> rfl

/-! ### Conditions and command words (R207) -/

/-- The states s and t differ in at most one condition. -/
def State.AgreeButOne (s t : State) : Prop :=
  ∃ c, ∀ c', c' ≠ c → t.condition c' = s.condition c'

theorem State.agreeButOne_raiseCondition (c : Condition) (s : State) : s.AgreeButOne (raiseCondition c s) :=
  ⟨c, fun _ h => (condition_raiseCondition c _ s).trans (if_neg h)⟩

theorem condition_executed_write (b : Byte) (c : Condition) (s : State) : (s.executed (.write b)).condition c =
    if c = .acknowledgeError then s.nextDraw else s.condition c := by
  cases c <;> rfl

theorem condition_executed_crcchk (e : Byte) (c : Condition) (s : State) : (s.executed (.crcchk e)).condition c =
    if c = .checksumError then s.crc != e else s.condition c := by
  cases c <;> rfl

/-- WRITE replaces ACKERR alone, CRCCHK replaces CRCERR alone, and the other commands leave all five (R39). -/
theorem State.agreeButOne_executed (i : Instr) (s : State) : s.AgreeButOne (s.executed i) := by
  cases i with
  | write b => exact ⟨.acknowledgeError, fun c h => (condition_executed_write b c s).trans (if_neg h)⟩
  | crcchk e => exact ⟨.checksumError, fun c h => (condition_executed_crcchk e c s).trans (if_neg h)⟩
  | init | start | stop | read | crcinit | crcupd | delay =>
    exact ⟨.sequenceError, fun c _ => by cases c <;> rfl⟩

theorem State.agreeButOne_of_exec {i : Instr} {s t : State} (h : exec i s = .next t) : s.AgreeButOne t := by
  rcases exec_inv h with ⟨-, -, rfl⟩ | ⟨-, rfl⟩
  · exact agreeButOne_raiseCondition .sequenceError s
  · exact agreeButOne_executed i s

theorem count_allConditions (c : Condition) : allConditions.count c = 1 := by
  cases c <;> rfl

theorem State.AgreeButOne.length_newlySet_le {s t : State} (h : s.AgreeButOne t) :
    (allConditions.filter fun c => t.condition c && !s.condition c).length ≤ 1 := by
  obtain ⟨c, hc⟩ := h
  rw [← List.countP_eq_length_filter]
  refine (List.countP_mono_left fun c' _ hnew => beq_iff_eq.2 ?_).trans_eq (count_allConditions c)
  by_contra hne
  simp [hc c' hne] at hnew

/-! ### Who changes the operation in progress (R213) -/

theorem exec_operation {i : Instr} {s t : State} (h : exec i s = .next t) : t.operation = s.operation := by
  rcases exec_inv h with ⟨-, -, rfl⟩ | ⟨-, rfl⟩
  · rfl
  · obtain ⟨-, -, -, -, -, -, ho⟩ := executed_frame i s
    exact ho

theorem hostRead_operation (addr : Word) (n : Nat) (s : State) : (hostRead addr n s).operation = s.operation := by
  rcases hostRead_cases addr n s with h | ⟨v, h | h⟩ <;> rw [h]

theorem hostWrite_operation {addr : Word} {n : Nat} {v : Word} {s t : State} (h : hostWrite addr n v s = .next t) :
    t.operation = s.operation := by
  rcases hostWrite_cases h with rfl | rfl | rfl | ⟨i, -, -, -, he⟩
  · rfl
  · rfl
  · rfl
  · exact exec_operation he

theorem foreignAccess_operation {addr : Word} {s t : State} (h : foreignAccess addr s = .next t) :
    t.operation = s.operation := by
  cases hw : inWindow s.cfg addr with
  | true => cases (foreignAccess_inside hw).symm.trans h
  | false => cases (foreignAccess_outside hw).symm.trans h; rfl

theorem runActions_operation (as : List Action) (s : State) : (runActions as s).operation = s.operation := by
  obtain ⟨-, -, -, -, -, -, -, -, -, ho⟩ := performAll_frame as 0#8 s
  exact ho

theorem resetBlock_operation (d : ResetDraw) (s : State) : (resetBlock d s).operation = s.operation := by
  rw [resetBlock_eq]

theorem cutWrite_operation (addr : Word) (n : Nat) (v : Word) (k : Nat) (d : ResetDraw) (s : State) :
    (cutWrite addr n v k d s).operation = s.operation :=
  (resetBlock_operation d _).trans (runActions_operation _ s)

/-- An event of an operation that is not in progress, other than its entry, is refused. -/
theorem performOperation_other {id : Nat} {e : OperationEvent} {s : State} (he : e ≠ .enter)
    (h : s.operation ≠ some id) : performOperation id e s = .refused .interleavedOperations := by
  cases e with
  | enter => exact absurd rfl he
  | read | write | cutWrite | leave => exact ifInProgress_other _ h

/-- An operation's event keeps the operation in progress, enters when there was none, or leaves it. -/
theorem performOperation_operation {id : Nat} {e : OperationEvent} {s t : State}
    (h : performOperation id e s = .next t) :
    t.operation = s.operation ∨ (e = .enter ∧ s.operation = none ∧ t.operation = some id) ∨
      (e = .leave ∧ s.operation = some id ∧ t.operation = none) := by
  cases e with
  | enter =>
    simp only [performOperation] at h
    split_ifs at h with hnone
    cases h
    exact .inr (.inl ⟨rfl, hnone, rfl⟩)
  | read a n =>
    obtain ⟨-, ht⟩ := ifInProgress_next h
    cases ht
    exact .inl (hostRead_operation a n s)
  | write a n v =>
    obtain ⟨-, ht⟩ := ifInProgress_next h
    exact .inl (hostWrite_operation ht)
  | cutWrite a n v k d =>
    obtain ⟨-, ht⟩ := ifInProgress_next h
    cases ht
    exact .inl (cutWrite_operation a n v k d s)
  | leave =>
    obtain ⟨hid, ht⟩ := ifInProgress_next h
    cases ht
    exact .inr (.inr ⟨rfl, hid, rfl⟩)

/-- No input but an operation's own event touches the operation in progress. -/
theorem performInput_operation {hin : HostInput} {s t : State} (h : performInput hin s = .next t) :
    t.operation = s.operation ∨ ∃ id e, hin = .operation id e ∧ performOperation id e s = .next t := by
  cases hin with
  | read a n =>
    cases h
    exact .inl (hostRead_operation a n s)
  | write a n v => exact .inl (hostWrite_operation h)
  | foreignAccess a => exact .inl (foreignAccess_operation h)
  | reset d =>
    cases h
    exact .inl (resetBlock_operation d s)
  | cutWrite a n v k d =>
    cases h
    exact .inl (cutWrite_operation a n v k d s)
  | operation id e => exact .inr ⟨id, e, rfl, h⟩

theorem step_changes_operation {s t : State} (h : step s = .next t) (hne : t.operation ≠ s.operation) :
    ∃ id rest, (s.inputs = .operation id .enter :: rest ∧ s.operation = none ∧ t.operation = some id) ∨
      (s.inputs = .operation id .leave :: rest ∧ s.operation = some id ∧ t.operation = none) := by
  rcases step_cases s with ⟨-, hs⟩ | ⟨hin, u, rfl, hs⟩
  · cases hs.symm.trans h
    exact absurd rfl hne
  rcases performInput_operation (hs.symm.trans h) with hkeep | ⟨id, e, rfl, ho⟩
  · exact absurd hkeep hne
  rcases performOperation_operation ho with hkeep | ⟨rfl, hnone, hid⟩ | ⟨rfl, hid, hnone⟩
  · exact absurd hkeep hne
  · exact ⟨id, u.inputs, .inl ⟨rfl, hnone, hid⟩⟩
  · exact ⟨id, u.inputs, .inr ⟨rfl, hid, hnone⟩⟩

/-! ### The statements settled -/

/-- Settles O28: a store to CMD records one condition or runs one command, and either changes one condition at most. -/
theorem oneConditionPerCommandWord : Obligations.OneConditionPerCommandWord := by
  intro s w
  cases hd : decode w with
  | ok i =>
    obtain ⟨t, ht⟩ := exec_completes i s
    exact ⟨t, (step_storesWord hd s).trans ht, (State.agreeButOne_of_exec ht).length_newlySet_le,
      fun hill => absurd rfl (hill i)⟩
  | error e =>
    have hill : ∀ i, decode w ≠ .ok i := by simp [hd]
    exact ⟨raiseCondition .illegalCommand s, step_storesIllegal hill s,
      (State.agreeButOne_raiseCondition .illegalCommand s).length_newlySet_le, fun _ => rfl⟩

/-- Settles O58: the refusals are the two checks of `performOperation`, and nothing else touches `State.operation`. -/
theorem operationsDoNotInterleave : Obligations.OperationsDoNotInterleave := by
  refine ⟨fun s id id' h => ?_, fun s id e he h => performOperation_other he h, fun s id h => if_pos h,
    fun s id h => ⟨ifInProgress_some _ h, fun a n => ifInProgress_some _ h, fun a n v => ifInProgress_some _ h,
      fun a n v k d => ifInProgress_some _ h⟩, fun s t => step_changes_operation⟩
  have hbusy : s.operation ≠ none := by simp [h]
  exact if_neg hbusy

/-- Settles O29: raising a condition turns its own term of STATUS on. -/
theorem raiseSetsTheBitOfItsCode : Obligations.RaiseSetsTheBitOfItsCode := fun c s =>
  ⟨status_raiseCondition c s, raiseCondition_withFlags c s⟩

end Sys2Proof.Machine
end

section
/-! Reset and hazards (spec/70_reset_and_hazards.md R230 to R240): the events each command adds to the trace, a reset in
the middle of a command, recovery by START and STOP, and command sequences that keep the framing discipline. -/

namespace Sys2Proof.Machine

/-! ### The events of each command (R90 to R92, R111, R112, R153) -/

/-- The events a command adds to the trace when it is not refused. -/
def State.commandTrace (i : Instr) (s : State) : List Event :=
  match i with
  | .init => initTrace
  | .start => startTrace s.cfg
  | .stop => stopTrace s.cfg
  | .write b => writeTrace s.cfg b s.nextDraw
  | .read a => readTrace s.cfg a (State.draws 8 s)
  | .crcinit => []
  | .crcupd _ => []
  | .crcchk _ => []
  | .delay n => [.wait n.toNat]

theorem executed_trace_eq (i : Instr) (s : State) : (s.executed i).trace = s.trace ++ s.commandTrace i := by
  cases i with
  | crcinit | crcupd | crcchk => exact (List.append_nil _).symm
  | init | start | stop | write | read | delay => rfl

theorem replay_commandTrace (i : Instr) (s : State) : replay (s.commandTrace i) s.drive = (s.executed i).drive := by
  cases i with
  | write b => exact replay_writeTrace _ _ _ _
  | read a => exact replay_readTrace _ _ _ _
  | init | start | stop | crcinit | crcupd | crcchk | delay => rfl

/-- Every line action records one event, but for INIT's last and READ's last, which only update a register. -/
theorem length_lineActions_le (i : Instr) (s : State) :
    (lineActions s.cfg i).length ≤ (s.commandTrace i).length + 1 := by
  cases i with
  | init => exact Nat.le_refl 3
  | start | stop => exact Nat.le_succ 8
  | write b => exact Nat.le_succ 54
  | read a =>
    rw [State.commandTrace, length_readTrace _ _ (draws_length 8 s)]
    exact Nat.le_refl 49
  | crcinit | crcupd | crcchk => exact Nat.le_succ 0
  | delay n => exact Nat.le_succ 1

/-- The line actions of a command are where all of its events come from (R8). -/
theorem runActions_lineActions_trace (i : Instr) (s : State) :
    (runActions (lineActions s.cfg i) s).trace = s.trace ++ s.commandTrace i := by
  rw [← executed_trace_eq]
  cases i with
  | init => rw [lineActions, runActions_init]; rfl
  | start => rw [lineActions, runActions_start]; rfl
  | stop => rw [lineActions, runActions_stop]; rfl
  | write b => rw [lineActions, runActions_write]; rfl
  | read a => rw [lineActions, runActions_read]; rfl
  | crcinit | crcupd | crcchk | delay => rfl

/-! ### A reset in the middle of a command (R231) -/

/-- What was done before a cut is a part of what would have been done. -/
theorem runActions_take_trace (as : List Action) (k : Nat) (s : State) :
    (runActions (as.take k) s).trace <+: (runActions as s).trace := by
  obtain ⟨⟨es, htr, -⟩, -⟩ :=
    performAll_frame (as.drop k) (performAll (as.take k) 0#8 s).1 (performAll (as.take k) 0#8 s).2
  rw [← performAll_append, List.take_append_drop] at htr
  exact ⟨es, htr.symm⟩

/-- A store to CMD starts its command's line actions when the command is not refused. -/
theorem storeActions_base {w : Word} {i : Instr} {s : State} (hd : decode w = .ok i)
    (hx : isBusCommand i = true → s.init = true) : storeActions s.cfg.base 4 w s = lineActions s.cfg i := by
  have hexec : (isBusCommand i && !s.init) = false := by
    cases hb : isBusCommand i with
    | true => simp [hx hb]
    | false => rfl
  simp [storeActions, inWindow_base, legalShape_base, hd, hexec]

theorem step_cutWrite (addr : Word) (n : Nat) (v : Word) (k : Nat) (d : ResetDraw) (s : State) :
    step (s.withInput (.cutWrite addr n v k d)) = .next (cutWrite addr n v k d s) := rfl

theorem cutWrite_trace (addr : Word) (n : Nat) (v : Word) (k : Nat) (d : ResetDraw) (s : State) :
    (cutWrite addr n v k d s).trace = (runActions ((storeActions addr n v s).take k) s).trace ++
      (if d.sclFirst then [.rel .scl, .rel .sda] else [.rel .sda, .rel .scl]) := by
  rw [cutWrite, resetBlock_eq]

theorem resetBlock_status (d : ResetDraw) (s : State) : (resetBlock d s).status = 0x00000000#32 := by
  simp [resetBlock_eq, State.status, statusBit]

/-- The cut command's actions leave what stands outside the block as it was, and so does the reset. -/
theorem cutWrite_outside (addr : Word) (n : Nat) (v : Word) (k : Nat) (d : ResetDraw) (s : State) :
    (cutWrite addr n v k d s).cfg = s.cfg ∧ (cutWrite addr n v k d s).inputs = s.inputs ∧
    (cutWrite addr n v k d s).readLog = s.readLog ∧ (cutWrite addr n v k d s).operation = s.operation := by
  obtain ⟨-, hc, hin, hl, -, -, -, -, -, ho⟩ := performAll_frame ((storeActions addr n v s).take k) 0#8 s
  rw [cutWrite, resetBlock_eq]
  exact ⟨hc, hin, hl, ho⟩

/-- The events of a command cut after its first k line actions: a prefix of them all, none for k = 0, and all of them
for a k past the end. -/
theorem runActions_take_lineActions (i : Instr) (k : Nat) (s : State) : ∃ pre,
    (runActions ((lineActions s.cfg i).take k) s).trace = s.trace ++ pre ∧ pre <+: s.commandTrace i ∧
    (k = 0 → pre = []) ∧ ((s.commandTrace i).length + 2 ≤ k → pre = s.commandTrace i) := by
  obtain ⟨pre, hpre, -⟩ := (runActions_extends ((lineActions s.cfg i).take k) s).traced
  have hprefix := runActions_take_trace (lineActions s.cfg i) k s
  rw [hpre, runActions_lineActions_trace, List.prefix_append_right_inj] at hprefix
  refine ⟨pre, hpre, hprefix, ?_, fun hk => ?_⟩
  · rintro rfl
    exact List.self_eq_append_right.1 hpre
  · have hle := length_lineActions_le i s
    rw [List.take_of_length_le (by omega), runActions_lineActions_trace] at hpre
    exact (List.append_cancel_left hpre).symm

/-! ### The framing discipline (R233, R234, R239, R240) -/

theorem Frame.agrees_iff (f : Frame) (s : State) : f.agrees s = true ↔
    (f = .beforeInit ∧ s.init = false ∧ s.drive = ⟨false, false⟩) ∨
    (f = .idle ∧ s.init = true ∧ s.drive = ⟨false, false⟩) ∨
    ((f = .inTransaction ∨ f = .afterReadAck) ∧ s.init = true ∧ s.sclLow = true) := by
  cases f <;> simp [Frame.agrees, State.drive, and_assoc]

/-- Both lines are released outside a transaction and the clock is low inside one, so the drive state is one of R96. -/
theorem Frame.legal_of_agrees {f : Frame} {s : State} (h : f.agrees s = true) : s.drive.legal = true := by
  rcases (Frame.agrees_iff f s).1 h with ⟨-, -, hd⟩ | ⟨-, -, hd⟩ | ⟨-, -, hc⟩
  · rw [hd]; rfl
  · rw [hd]; rfl
  · exact Drive.legal_of_scl hc

/-- R33, R233: the discipline asks for an INIT before any bus command. -/
theorem Frame.init_of_next {f g : Frame} {i : Instr} {s : State} (hn : f.next i = some g) (ha : f.agrees s = true)
    (hb : isBusCommand i = true) : s.init = true := by
  rcases (Frame.agrees_iff f s).1 ha with ⟨rfl, -, -⟩ | ⟨-, hi, -⟩ | ⟨-, hi, -⟩
  · cases i with
    | start | stop | write | read => cases hn
    | init | crcinit | crcupd | crcchk | delay => cases hb
  · exact hi
  · exact hi

/-- R239: a WRITE stands inside a transaction, so it finds the clock low. -/
theorem Frame.sclLow_of_next {f g : Frame} {i : Instr} {s : State} (hn : f.next i = some g) (ha : f.agrees s = true)
    (b : Byte) (hi : i = .write b) : s.sclLow = true := by
  subst hi
  rcases (Frame.agrees_iff f s).1 ha with ⟨rfl, -, -⟩ | ⟨rfl, -, -⟩ | ⟨-, -, hc⟩
  · cases hn
  · cases hn
  · exact hc

theorem Frame.next_init {f g : Frame} (hn : f.next .init = some g) : g = .idle := by
  cases f <;> cases hn <;> rfl

theorem Frame.next_stop {f g : Frame} (hn : f.next .stop = some g) : g = .idle := by
  cases f <;> cases hn <;> rfl

/-- START opens a transaction, and WRITE and READ stay in it. -/
theorem Frame.next_inside {f g : Frame} {i : Instr} (hn : f.next i = some g)
    (hi : i = .start ∨ (∃ b, i = .write b) ∨ ∃ a, i = .read a) : g = .inTransaction ∨ g = .afterReadAck := by
  rcases hi with rfl | ⟨b, rfl⟩ | ⟨a, rfl⟩
  · cases f <;> cases hn <;> simp
  · cases f <;> cases hn <;> simp
  · cases f <;> cases a <;> cases hn <;> simp

/-- Each command the discipline allows leaves the lines and INIT where the discipline goes. -/
theorem Frame.agrees_executed {f g : Frame} {i : Instr} {s : State} (hn : f.next i = some g)
    (ha : f.agrees s = true) : g.agrees (s.executed i) = true := by
  have hi := Frame.init_of_next hn ha
  cases i with
  | init => exact (Frame.agrees_iff _ _).2 (.inr (.inl ⟨Frame.next_init hn, rfl, rfl⟩))
  | stop => exact (Frame.agrees_iff _ _).2 (.inr (.inl ⟨Frame.next_stop hn, hi rfl, rfl⟩))
  | start | write | read =>
    exact (Frame.agrees_iff _ _).2 (.inr (.inr ⟨Frame.next_inside hn (by simp), hi rfl, rfl⟩))
  | crcinit | crcupd | crcchk | delay =>
    cases hn
    exact ha

/-- From a drive state of R96, and with the clock low if it is a WRITE, START makes one start condition, STOP one stop
condition, and no other command makes either (R94, R95, R114). -/
theorem conditions_commandTrace {i : Instr} {s : State} (hl : s.drive.legal = true)
    (hw : ∀ b, i = .write b → s.sclLow = true) :
    startConditions (s.commandTrace i) s.drive = (if i == .start then 1 else 0) ∧
    stopConditions (s.commandTrace i) s.drive = (if i == .stop then 1 else 0) := by
  cases i with
  | init => exact ⟨startConditions_initTrace _, (stopConditions_initTrace _).trans (if_neg (Drive.ne_of_legal hl))⟩
  | start =>
    exact ⟨startConditions_startTrace _ _, (stopConditions_startTrace _ _).trans (if_neg (Drive.ne_of_legal hl))⟩
  | stop => exact ⟨startConditions_stopTrace _ _, stopConditions_stopTrace _ _⟩
  | write b => exact no_conditions_of_sdaMovesWhileClockLow _ _ (sdaMovesWhileClockLow_writeTrace _ _ _ (hw b rfl))
  | read a =>
    exact no_conditions_of_sdaMovesWhileClockLow _ _ (sdaMovesWhileClockLow_readTrace _ _ (draws_eight_ne_nil s) hl)
  | crcinit | crcupd | crcchk | delay => exact ⟨rfl, rfl⟩

/-! ### The statements settled -/

/-- Settles O50: by induction on the commands, each of which moves the machine along with the discipline and makes the
one condition it is for. -/
theorem framedSequencesFrameTheBus : Obligations.FramedSequencesFrameTheBus := by
  intro is
  induction is with
  | nil =>
    intro f g s hrun ha hl
    cases hrun
    exact ⟨s, [], rfl, ha, hl, rfl, rfl, rfl, (List.append_nil _).symm, rfl, rfl⟩
  | cons i is ih =>
    intro f g s hrun ha hl
    obtain ⟨m, hn, hrest⟩ := Option.bind_eq_some_iff.1 hrun
    have ha' := Frame.agrees_executed hn ha
    obtain ⟨hstart, hstop⟩ := conditions_commandTrace hl (Frame.sclLow_of_next hn ha)
    obtain ⟨hcmd, hacc, hseq⟩ := executed_sticky i s
    obtain ⟨t, es, ht, hg, hlegal, hcmd', hacc', hseq', htr, hstarts, hstops⟩ :=
      ih m g _ hrest ha' (Frame.legal_of_agrees ha')
    refine ⟨t, s.commandTrace i ++ es, ?_, hg, hlegal, hcmd'.trans hcmd, hacc'.trans hacc, hseq'.trans hseq, ?_, ?_, ?_⟩
    · rw [runCommands_cons, exec_executed (Frame.init_of_next hn ha), andThen_next, ht]
    · rw [htr, executed_trace_eq, List.append_assoc]
    · rw [startConditions_append, replay_commandTrace, hstart, hstarts, List.countP_cons, Nat.add_comm]
    · rw [stopConditions_append, replay_commandTrace, hstop, hstops, List.countP_cons, Nat.add_comm]

/-- Settles O31: the first k line actions record a prefix of the command's events, and the reset does the rest. -/
theorem resetDuringACommandCutsItsTrace : Obligations.ResetDuringACommandCutsItsTrace := by
  intro s w i k d hd hx
  obtain ⟨pre, hpre, hprefix, hzero, hpast⟩ := runActions_take_lineActions i k s
  refine ⟨cutWrite s.cfg.base 4 w k d s, s.executed i, pre, s.commandTrace i, step_cutWrite _ _ _ _ _ _,
    exec_executed hx, executed_trace_eq i s, hprefix, hzero, hpast, ?_, resetBlock_drive d _, resetBlock_status d _,
    rfl, rfl, cutWrite_outside _ _ _ _ _ _⟩
  rw [cutWrite_trace, storeActions_base hd hx, hpre]

/-- Settles O51: STOP releases what START has driven low, and neither changes anything else but the trace. -/
theorem startThenStopRecovers : Obligations.StartThenStopRecovers := fun _ hi =>
  ⟨_, runCommands_of_init [.start, .stop] hi, rfl⟩

end Sys2Proof.Machine
end
